-- ==== Sys2Proof/Word.lean ====
section
/-! DEFINITION. The widths of the CORE's values (00_scope.md R6, R7): every value is an unsigned bit vector
of a stated width, bit 0 the least significant. -/

namespace Sys2Proof

/-- u8: a data register, a memory byte, a timer (10_state.md R20, R29, R31). -/
abbrev Byte := BitVec 8

/-- u16: an instruction word, I, PC, a return address, the key vector (10_state.md R22, R24, R26, R32). -/
abbrev Word := BitVec 16

/-- A 4-bit field: a register index `x` or `y`, a row count `n` (30_encoding.md R71). -/
abbrev Nibble := BitVec 4

/-- The 12-bit field `nnn`: an absolute address (30_encoding.md R73). -/
abbrev Addr := BitVec 12

/-- `bool(c)` as a u8: 1 if the condition holds, else 0 (00_scope.md R7). -/
def boolByte (c : Bool) : Byte := if c then 1 else 0

end Sys2Proof
end

