-- ==== Sys2Proof/Syntax.lean ====
section
/-! DEFINITION. The 34 instructions, one constructor per row of opcode_table.json, with the operand fields
of 30_encoding.md R71. The operands' widths are in their types, so no out-of-range operand can be written. -/

namespace Sys2Proof

/-- The instruction set (30_encoding.md R77); each constructor names its pattern and the rule of its effect. -/
inductive Instr where
  /-- 00E0 CLS (R190) -/
  | cls
  /-- 00EE RET (R120) -/
  | ret
  /-- 1nnn JP addr (R121) -/
  | jpAddr (nnn : Addr)
  /-- 2nnn CALL addr (R122) -/
  | call (nnn : Addr)
  /-- 3xkk SE Vx, byte (R125) -/
  | seImm (x : Nibble) (kk : Byte)
  /-- 4xkk SNE Vx, byte (R126) -/
  | sneImm (x : Nibble) (kk : Byte)
  /-- 5xy0 SE Vx, Vy (R127) -/
  | seReg (x y : Nibble)
  /-- 6xkk LD Vx, byte (R141) -/
  | ldImm (x : Nibble) (kk : Byte)
  /-- 7xkk ADD Vx, byte (R142) -/
  | addImm (x : Nibble) (kk : Byte)
  /-- 8xy0 LD Vx, Vy (R143) -/
  | ldReg (x y : Nibble)
  /-- 8xy1 OR Vx, Vy (R144) -/
  | orReg (x y : Nibble)
  /-- 8xy2 AND Vx, Vy (R145) -/
  | andReg (x y : Nibble)
  /-- 8xy3 XOR Vx, Vy (R146) -/
  | xorReg (x y : Nibble)
  /-- 8xy4 ADD Vx, Vy (R151) -/
  | addReg (x y : Nibble)
  /-- 8xy5 SUB Vx, Vy (R153) -/
  | sub (x y : Nibble)
  /-- 8xy6 SHR Vx, Vy (R157) -/
  | shr (x y : Nibble)
  /-- 8xy7 SUBN Vx, Vy (R155) -/
  | subn (x y : Nibble)
  /-- 8xyE SHL Vx, Vy (R158) -/
  | shl (x y : Nibble)
  /-- 9xy0 SNE Vx, Vy (R128) -/
  | sneReg (x y : Nibble)
  /-- Annn LD I, addr (R170) -/
  | ldI (nnn : Addr)
  /-- Bnnn JP V0, addr (R129) -/
  | jpV0 (nnn : Addr)
  /-- Cxkk RND Vx, byte (R159) -/
  | rnd (x : Nibble) (kk : Byte)
  /-- Dxyn DRW Vx, Vy, nib (R191) -/
  | drw (x y n : Nibble)
  /-- Ex9E SKP Vx (R226) -/
  | skp (x : Nibble)
  /-- ExA1 SKNP Vx (R227) -/
  | sknp (x : Nibble)
  /-- Fx07 LD Vx, DT (R210) -/
  | ldVDt (x : Nibble)
  /-- Fx0A LD Vx, K (R228) -/
  | ldVK (x : Nibble)
  /-- Fx15 LD DT, Vx (R211) -/
  | ldDtV (x : Nibble)
  /-- Fx18 LD ST, Vx (R212) -/
  | ldStV (x : Nibble)
  /-- Fx1E ADD I, Vx (R171) -/
  | addI (x : Nibble)
  /-- Fx29 LD F, Vx (R172) -/
  | ldF (x : Nibble)
  /-- Fx33 LD B, Vx (R173) -/
  | ldB (x : Nibble)
  /-- Fx55 LD [I], Vx (R174) -/
  | ldMemV (x : Nibble)
  /-- Fx65 LD Vx, [I] (R175) -/
  | ldVMem (x : Nibble)
  deriving DecidableEq, Repr

end Sys2Proof
end

