-- ==== Sys2Proof/WellFormed.lean ====
section
/-! DEFINITION. Well-formedness. An instruction's operands are well formed by their types (Syntax.lean); what
can be ill formed is an instruction WORD: 21582 of the 65536 words match no pattern (30_encoding.md R84). The
opcode map is written here as the table has it, mask and pattern, apart from the decoder's dispatch. -/

namespace Sys2Proof

/-- One row of the opcode map: a word `w` is the row's instruction iff `w & mask = pattern`. -/
structure OpcodeRow where
  mnemonic : String
  mask : Word
  pattern : Word
  deriving DecidableEq, Repr

/-- The row's test of a word. -/
def OpcodeRow.admits (r : OpcodeRow) (w : Word) : Bool := w &&& r.mask == r.pattern

/-- The row of each instruction (30_encoding.md R77; opcode_table.json). -/
def Instr.row : Instr → OpcodeRow
  | .cls => ⟨"CLS", 0xFFFF, 0x00E0⟩
  | .ret => ⟨"RET", 0xFFFF, 0x00EE⟩
  | .jpAddr _ => ⟨"JP_ADDR", 0xF000, 0x1000⟩
  | .call _ => ⟨"CALL", 0xF000, 0x2000⟩
  | .seImm _ _ => ⟨"SE_IMM", 0xF000, 0x3000⟩
  | .sneImm _ _ => ⟨"SNE_IMM", 0xF000, 0x4000⟩
  | .seReg _ _ => ⟨"SE_REG", 0xF00F, 0x5000⟩
  | .ldImm _ _ => ⟨"LD_IMM", 0xF000, 0x6000⟩
  | .addImm _ _ => ⟨"ADD_IMM", 0xF000, 0x7000⟩
  | .ldReg _ _ => ⟨"LD_REG", 0xF00F, 0x8000⟩
  | .orReg _ _ => ⟨"OR", 0xF00F, 0x8001⟩
  | .andReg _ _ => ⟨"AND", 0xF00F, 0x8002⟩
  | .xorReg _ _ => ⟨"XOR", 0xF00F, 0x8003⟩
  | .addReg _ _ => ⟨"ADD_REG", 0xF00F, 0x8004⟩
  | .sub _ _ => ⟨"SUB", 0xF00F, 0x8005⟩
  | .shr _ _ => ⟨"SHR", 0xF00F, 0x8006⟩
  | .subn _ _ => ⟨"SUBN", 0xF00F, 0x8007⟩
  | .shl _ _ => ⟨"SHL", 0xF00F, 0x800E⟩
  | .sneReg _ _ => ⟨"SNE_REG", 0xF00F, 0x9000⟩
  | .ldI _ => ⟨"LD_I", 0xF000, 0xA000⟩
  | .jpV0 _ => ⟨"JP_V0", 0xF000, 0xB000⟩
  | .rnd _ _ => ⟨"RND", 0xF000, 0xC000⟩
  | .drw _ _ _ => ⟨"DRW", 0xF000, 0xD000⟩
  | .skp _ => ⟨"SKP", 0xF0FF, 0xE09E⟩
  | .sknp _ => ⟨"SKNP", 0xF0FF, 0xE0A1⟩
  | .ldVDt _ => ⟨"LD_V_DT", 0xF0FF, 0xF007⟩
  | .ldVK _ => ⟨"LD_V_K", 0xF0FF, 0xF00A⟩
  | .ldDtV _ => ⟨"LD_DT_V", 0xF0FF, 0xF015⟩
  | .ldStV _ => ⟨"LD_ST_V", 0xF0FF, 0xF018⟩
  | .addI _ => ⟨"ADD_I", 0xF0FF, 0xF01E⟩
  | .ldF _ => ⟨"LD_F", 0xF0FF, 0xF029⟩
  | .ldB _ => ⟨"LD_B", 0xF0FF, 0xF033⟩
  | .ldMemV _ => ⟨"LD_MEM_V", 0xF0FF, 0xF055⟩
  | .ldVMem _ => ⟨"LD_V_MEM", 0xF0FF, 0xF065⟩

/-- The rows of families 0x0 to 0x7 (30_encoding.md R77). -/
def opcodeRowsLow : List OpcodeRow :=
  [ Instr.row (.cls),
    Instr.row (.ret),
    Instr.row (.jpAddr 0),
    Instr.row (.call 0),
    Instr.row (.seImm 0 0),
    Instr.row (.sneImm 0 0),
    Instr.row (.seReg 0 0),
    Instr.row (.ldImm 0 0),
    Instr.row (.addImm 0 0) ]

/-- The rows of family 0x8 (30_encoding.md R79). -/
def opcodeRowsAlu : List OpcodeRow :=
  [ Instr.row (.ldReg 0 0),
    Instr.row (.orReg 0 0),
    Instr.row (.andReg 0 0),
    Instr.row (.xorReg 0 0),
    Instr.row (.addReg 0 0),
    Instr.row (.sub 0 0),
    Instr.row (.shr 0 0),
    Instr.row (.subn 0 0),
    Instr.row (.shl 0 0) ]

/-- The rows of families 0x9 to 0xF (30_encoding.md R77). -/
def opcodeRowsHigh : List OpcodeRow :=
  [ Instr.row (.sneReg 0 0),
    Instr.row (.ldI 0),
    Instr.row (.jpV0 0),
    Instr.row (.rnd 0 0),
    Instr.row (.drw 0 0 0),
    Instr.row (.skp 0),
    Instr.row (.sknp 0),
    Instr.row (.ldVDt 0),
    Instr.row (.ldVK 0),
    Instr.row (.ldDtV 0),
    Instr.row (.ldStV 0),
    Instr.row (.addI 0),
    Instr.row (.ldF 0),
    Instr.row (.ldB 0),
    Instr.row (.ldMemV 0),
    Instr.row (.ldVMem 0) ]

/-- The whole opcode map: 34 rows. -/
def opcodeRows : List OpcodeRow := opcodeRowsLow ++ opcodeRowsAlu ++ opcodeRowsHigh

/-- A word is well formed iff it matches a row of the opcode map; every other word is INVALID
(30_encoding.md R78 to R85). -/
def wordWellFormed (w : Word) : Bool := opcodeRows.any (·.admits w)

end Sys2Proof
end

