-- ==== Sys2Proof/Decode.lean ====
section
/-! DEFINITION. The decoder (30_encoding.md R70 to R85), total on every word and on any bytes, rejecting by
name; after it the encoder, and the table's numbering of an instruction's bits. -/

namespace Sys2Proof

/-- Why bytes are no instruction. Each of the word reasons is the hardware's InvalidOpcode (R85). -/
inductive DecodeError where
  /-- fewer than the two bytes of an instruction word (R70) -/
  | truncated
  /-- family 0x0: neither 00E0 nor 00EE (R78) -/
  | unmappedSystem
  /-- family 0x5 with n ≠ 0 (R80) -/
  | unmappedSkipEqual
  /-- family 0x8 with n in 8, 9, A, B, C, D, F (R79) -/
  | unmappedAlu
  /-- family 0x9 with n ≠ 0 (R80) -/
  | unmappedSkipNotEqual
  /-- family 0xE with kk neither 9E nor A1 (R81) -/
  | unmappedKey
  /-- family 0xF with kk outside the nine listed values (R82) -/
  | unmappedMisc
  deriving DecidableEq, Repr

/-- `op = w[15:12]`, the family selector (R71). -/
def Word.opField (w : Word) : Nibble := w.extractLsb' 12 4

/-- `x = w[11:8]` (R71). -/
def Word.xField (w : Word) : Nibble := w.extractLsb' 8 4

/-- `y = w[7:4]` (R71). -/
def Word.yField (w : Word) : Nibble := w.extractLsb' 4 4

/-- `n = w[3:0]` (R71, R74). -/
def Word.nField (w : Word) : Nibble := w.extractLsb' 0 4

/-- `kk = w[7:0]` (R71, R72). -/
def Word.kkField (w : Word) : Byte := w.extractLsb' 0 8

/-- `nnn = w[11:0]` (R71, R73). -/
def Word.nnnField (w : Word) : Addr := w.extractLsb' 0 12

/-- Family 0x0: the whole word is matched (R78). -/
def decodeSystem (w : Word) : Except DecodeError Instr :=
  match w with
  | 0x00E0#16 => .ok .cls
  | 0x00EE#16 => .ok .ret
  | _ => .error .unmappedSystem

/-- Family 0x8, selected by `n` (R79). -/
def decodeAlu (w : Word) : Except DecodeError Instr :=
  match Word.nField w with
  | 0x0#4 => .ok (.ldReg (Word.xField w) (Word.yField w))
  | 0x1#4 => .ok (.orReg (Word.xField w) (Word.yField w))
  | 0x2#4 => .ok (.andReg (Word.xField w) (Word.yField w))
  | 0x3#4 => .ok (.xorReg (Word.xField w) (Word.yField w))
  | 0x4#4 => .ok (.addReg (Word.xField w) (Word.yField w))
  | 0x5#4 => .ok (.sub (Word.xField w) (Word.yField w))
  | 0x6#4 => .ok (.shr (Word.xField w) (Word.yField w))
  | 0x7#4 => .ok (.subn (Word.xField w) (Word.yField w))
  | 0xE#4 => .ok (.shl (Word.xField w) (Word.yField w))
  | _ => .error .unmappedAlu

/-- Family 0xE, selected by `kk` (R81). -/
def decodeKey (w : Word) : Except DecodeError Instr :=
  match Word.kkField w with
  | 0x9E#8 => .ok (.skp (Word.xField w))
  | 0xA1#8 => .ok (.sknp (Word.xField w))
  | _ => .error .unmappedKey

/-- Family 0xF, selected by `kk` (R82). -/
def decodeMisc (w : Word) : Except DecodeError Instr :=
  match Word.kkField w with
  | 0x07#8 => .ok (.ldVDt (Word.xField w))
  | 0x0A#8 => .ok (.ldVK (Word.xField w))
  | 0x15#8 => .ok (.ldDtV (Word.xField w))
  | 0x18#8 => .ok (.ldStV (Word.xField w))
  | 0x1E#8 => .ok (.addI (Word.xField w))
  | 0x29#8 => .ok (.ldF (Word.xField w))
  | 0x33#8 => .ok (.ldB (Word.xField w))
  | 0x55#8 => .ok (.ldMemV (Word.xField w))
  | 0x65#8 => .ok (.ldVMem (Word.xField w))
  | _ => .error .unmappedMisc

/-- `Decode(w)` (40_fetch_cycle.md R103; 30_encoding.md R77, R84): dispatch on the top nibble, then within
families 0x0, 0x5, 0x8, 0x9, 0xE and 0xF on the sub-selector. The last arm is family 0xF, the one nibble
value the others leave. -/
def decodeWord (w : Word) : Except DecodeError Instr :=
  match Word.opField w with
  | 0x0#4 => decodeSystem w
  | 0x1#4 => .ok (.jpAddr (Word.nnnField w))
  | 0x2#4 => .ok (.call (Word.nnnField w))
  | 0x3#4 => .ok (.seImm (Word.xField w) (Word.kkField w))
  | 0x4#4 => .ok (.sneImm (Word.xField w) (Word.kkField w))
  | 0x5#4 =>
    if Word.nField w = 0 then .ok (.seReg (Word.xField w) (Word.yField w)) else .error .unmappedSkipEqual
  | 0x6#4 => .ok (.ldImm (Word.xField w) (Word.kkField w))
  | 0x7#4 => .ok (.addImm (Word.xField w) (Word.kkField w))
  | 0x8#4 => decodeAlu w
  | 0x9#4 =>
    if Word.nField w = 0 then .ok (.sneReg (Word.xField w) (Word.yField w)) else .error .unmappedSkipNotEqual
  | 0xA#4 => .ok (.ldI (Word.nnnField w))
  | 0xB#4 => .ok (.jpV0 (Word.nnnField w))
  | 0xC#4 => .ok (.rnd (Word.xField w) (Word.kkField w))
  | 0xD#4 => .ok (.drw (Word.xField w) (Word.yField w) (Word.nField w))
  | 0xE#4 => decodeKey w
  | _ => decodeMisc w

/-- The word of two bytes: the first, at the lower address, supplies bits 15:8 (20_memory.md R52). -/
def bytesToWord (first second : Byte) : Word := first ++ second

/-- The two bytes of a word, in the order memory holds them (20_memory.md R52). -/
def wordToBytes (w : Word) : List Byte := [w.extractLsb' 8 8, w.extractLsb' 0 8]

/-- The decoder on a stream of bytes: the first instruction and the bytes after it (R70: always 2 bytes). -/
def decodeBytes : List Byte → Except DecodeError (Instr × List Byte)
  | first :: second :: rest => (decodeWord (bytesToWord first second)).map fun i => (i, rest)
  | _ => .error .truncated

/-! ### The encoder (the patterns of 30_encoding.md R77, laid out by R76) -/

/-- Shape ADDR: op(4) nnn(12). -/
def encAddr (op : Nibble) (nnn : Addr) : Word := op ++ nnn

/-- Shape REG_IMM: op(4) x(4) kk(8). -/
def encRegImm (op x : Nibble) (kk : Byte) : Word := op ++ x ++ kk

/-- Shapes REG_REG and DRAW: op(4) x(4) y(4) and the low nibble. -/
def encRegReg (op x y low : Nibble) : Word := op ++ x ++ y ++ low

/-- The word of an instruction. -/
def encode : Instr → Word
  | .cls => 0x00E0
  | .ret => 0x00EE
  | .jpAddr nnn => encAddr 0x1 nnn
  | .call nnn => encAddr 0x2 nnn
  | .seImm x kk => encRegImm 0x3 x kk
  | .sneImm x kk => encRegImm 0x4 x kk
  | .seReg x y => encRegReg 0x5 x y 0x0
  | .ldImm x kk => encRegImm 0x6 x kk
  | .addImm x kk => encRegImm 0x7 x kk
  | .ldReg x y => encRegReg 0x8 x y 0x0
  | .orReg x y => encRegReg 0x8 x y 0x1
  | .andReg x y => encRegReg 0x8 x y 0x2
  | .xorReg x y => encRegReg 0x8 x y 0x3
  | .addReg x y => encRegReg 0x8 x y 0x4
  | .sub x y => encRegReg 0x8 x y 0x5
  | .shr x y => encRegReg 0x8 x y 0x6
  | .subn x y => encRegReg 0x8 x y 0x7
  | .shl x y => encRegReg 0x8 x y 0xE
  | .sneReg x y => encRegReg 0x9 x y 0x0
  | .ldI nnn => encAddr 0xA nnn
  | .jpV0 nnn => encAddr 0xB nnn
  | .rnd x kk => encRegImm 0xC x kk
  | .drw x y n => encRegReg 0xD x y n
  | .skp x => encRegImm 0xE x 0x9E
  | .sknp x => encRegImm 0xE x 0xA1
  | .ldVDt x => encRegImm 0xF x 0x07
  | .ldVK x => encRegImm 0xF x 0x0A
  | .ldDtV x => encRegImm 0xF x 0x15
  | .ldStV x => encRegImm 0xF x 0x18
  | .addI x => encRegImm 0xF x 0x1E
  | .ldF x => encRegImm 0xF x 0x29
  | .ldB x => encRegImm 0xF x 0x33
  | .ldMemV x => encRegImm 0xF x 0x55
  | .ldVMem x => encRegImm 0xF x 0x65

/-! ### The opcode table's numbering -/

/-- The 16-bit word whose low `nbits` bits are those of `w`, all bits above them zero. -/
def tableWord (nbits w : Nat) : Word := BitVec.ofNat 16 (w % 2 ^ nbits)

/-- The instruction the decoder reads from an instruction whose bits are `w`, bit 0 the least significant
(opcode_table.json): the word's bytes in memory order, given to the decoder. -/
def decodeTableWord (nbits w : Nat) : Option Instr :=
  match decodeBytes (wordToBytes (tableWord nbits w)) with
  | .ok (i, _) => some i
  | .error _ => none

end Sys2Proof
end

