-- ==== Sys2Proof/Config.lean ====
section
/-! DEFINITION. The fixed implementation parameters of 00_scope.md R5, the configuration input State.reset
takes, and the inputs the spec leaves to the host where the model's list of host operations is empty. -/

namespace Sys2Proof.Config

/-- P1 MEM_SIZE: 4096 bytes, addresses 0x000..0xFFF. -/
abbrev memSize : Nat := 4096

/-- P2 NUM_V: 16 general registers. -/
abbrev numV : Nat := 16

/-- P3 STACK_DEPTH: 16 return-address slots. -/
abbrev stackDepth : Nat := 16

/-- P4 DISPLAY_W: 64 columns. -/
abbrev displayW : Nat := 64

/-- P4 DISPLAY_H: 32 rows. -/
abbrev displayH : Nat := 32

/-- P9 FONT: 80 bytes, sixteen 5-byte glyphs. -/
abbrev fontSize : Nat := 80

/-- P11 KEY_COUNT: 16 keys. -/
abbrev keyCount : Nat := 16

/-- P15 ROM_BASE: where LOAD puts the image and sets PC. -/
abbrev romBase : Nat := 0x200

/-- The configuration input `State.reset` latches: CLIP, AFTER, NOT_BORROW, VX (DESIGN CHOICE, log entry 5:
"The spec's recommended input is 0b0000 with SPRITE_EDGE left to the user", 10_state.md R36). Unsafe for a
claim that rests on it; `State.resetWith` and the host operation RESET take every configuration. -/
def resetConfig : BitVec 4 := 0b0000#4

/-- The key vector of the n-th STEP the model issues itself, when no host operation is pending: a free value
(40_fetch_cycle.md R100, any K; DESIGN CHOICE, log entry 2). Safe: nothing constrains it. -/
opaque freeKeys : Nat → Word

/-- The random byte of the n-th STEP the model issues itself: a free value ("rnd is a free draw with no law",
92_eei_decisions.md D16; DESIGN CHOICE, log entry 2). Safe: nothing constrains it. -/
opaque freeRandom : Nat → Byte

end Sys2Proof.Config
end

