-- ==== Sys2Proof/Machine/Memory.lean ====
section
/-! DEFINITION. The memory array of 4096 bytes (10_state.md R31; 20_memory.md R50), held as the list of the
bytes that differ from what RESET leaves, addresses strictly rising; and the default FONT. -/

namespace Sys2Proof.Machine

/-- The cells of memory that differ from the reset contents, addresses strictly rising. -/
abbrev Memory := List Host.Cell

/-- The FONT parameter: 80 bytes, glyph `d` at `5*d` (10_state.md R40). -/
abbrev Font := Vector Byte Config.fontSize

/-- The default FONT: the table of 10_state.md R40, glyphs 0 to F (PRESUMED, log entry 4: the spec marks the
byte values "[from general knowledge, not in source]"). -/
def Font.default : Font :=
  #v[0xF0, 0x90, 0x90, 0x90, 0xF0,
     0x20, 0x60, 0x20, 0x20, 0x70,
     0xF0, 0x10, 0xF0, 0x80, 0xF0,
     0xF0, 0x10, 0xF0, 0x10, 0xF0,
     0x90, 0x90, 0xF0, 0x10, 0x10,
     0xF0, 0x80, 0xF0, 0x10, 0xF0,
     0xF0, 0x80, 0xF0, 0x90, 0xF0,
     0xF0, 0x10, 0x20, 0x40, 0x40,
     0xF0, 0x90, 0xF0, 0x90, 0xF0,
     0xF0, 0x90, 0xF0, 0x10, 0xF0,
     0xF0, 0x90, 0xF0, 0x90, 0x90,
     0xE0, 0x90, 0xE0, 0x90, 0xE0,
     0xF0, 0x80, 0x80, 0x80, 0xF0,
     0xE0, 0x90, 0x90, 0x90, 0xE0,
     0xF0, 0x80, 0xF0, 0x80, 0xF0,
     0xF0, 0x80, 0xF0, 0x80, 0x80]

namespace Memory

/-- What an unlisted address reads as: the reset contents, FONT at 0x000..0x04F and 0x00 elsewhere
(10_state.md R31, R41). -/
def unlisted (font : Font) (a : Nat) : Byte := if h : a < Config.fontSize then font[a] else 0

/-- The byte at an address. -/
def read (font : Font) : Memory → Nat → Byte
  | [], a => unlisted font a
  | (k, b) :: m, a => if k = a then b else read font m a

/-- Put a cell at its place in the rising order. -/
def insert (a : Nat) (b : Byte) : Memory → Memory
  | [] => [(a, b)]
  | (k, c) :: m => if a < k then (a, b) :: (k, c) :: m else (k, c) :: insert a b m

/-- Store one byte, keeping the canonical form: a byte equal to the reset contents is not listed. -/
def write (font : Font) (m : Memory) (a : Nat) (b : Byte) : Memory :=
  let others := m.filter fun c => c.1 != a
  if b = unlisted font a then others else insert a b others

/-- Store bytes at consecutive rising addresses. -/
def writeBytes (font : Font) : Memory → Nat → List Byte → Memory
  | m, _, [] => m
  | m, a, b :: bs => writeBytes font (write font m a b) (a + 1) bs

/-- The canonical form from address `lo` up: strictly rising addresses of the 4096-byte space, each cell's byte
differing from the reset contents. -/
def wfFrom (font : Font) : Nat → Memory → Bool
  | _, [] => true
  | lo, (k, b) :: m => lo ≤ k && k < Config.memSize && b != unlisted font k && wfFrom font (k + 1) m

/-- The canonical form of memory. -/
def wf (font : Font) (m : Memory) : Bool := wfFrom font 0 m

end Memory

end Sys2Proof.Machine
end

