-- ==== Sys2Proof/Machine/State.lean ====
section
/-! DEFINITION. The state of the CORE: the complete table of 10_state.md R41, and beside it the inputs the
host supplies (60_exceptions.md R260), held as plain data so that one step is a function of the state. -/

namespace Sys2Proof.Machine

/-- The display buffer: 32 rows of 64 one-bit pixels; bit `x` of row `y` is `D[x][y]` (10_state.md R30). -/
abbrev Display := Vector (BitVec 64) Config.displayH

/-- RUN_STATE (10_state.md R33). The encoding 0b11 is "never produced" and cannot be written here. -/
inductive RunState where
  /-- 0b00: a STEP fetches and executes one instruction -/
  | running
  /-- 0b01: Fx0A is pending; a STEP only tests for a key press -/
  | awaitingKey
  /-- 0b10: an error was raised; only RESET leaves this state -/
  | halted
  deriving DecidableEq, Repr

/-- ERR_CODE (10_state.md R35; 60_exceptions.md R241). Codes 5 to 7 are never written and cannot be here. -/
inductive ErrCode where
  /-- 0 -/
  | none
  /-- 1 -/
  | invalidOpcode
  /-- 2 -/
  | stackOverflow
  /-- 3 -/
  | stackUnderflow
  /-- 4 -/
  | addressOutOfRange
  deriving DecidableEq, Repr

/-- The error record ERR_CODE, ERR_PC, ERR_OPCODE, ERR_ADDR (10_state.md R35). -/
structure ErrorRecord where
  code : ErrCode
  pc : Word
  opcode : Word
  addr : Word
  deriving DecidableEq, Repr

/-- LOAD_STATUS (10_state.md R37): 0 or 5. -/
inductive LoadStatus where
  /-- 0 -/
  | success
  /-- 5 -/
  | romTooLarge
  deriving DecidableEq, Repr

/-- The host operations (60_exceptions.md R260). -/
inductive HostOp where
  /-- RESET(cfg), the four quirk options -/
  | reset (cfg : BitVec 4)
  /-- LOAD(rom), a byte string of any length -/
  | load (rom : List Byte)
  /-- STEP(K, rnd) -/
  | step (keys : Word) (rnd : Byte)
  /-- TICK -/
  | tick
  deriving DecidableEq, Repr

/-- An error a step raises, with the `info` it records (00_scope.md R8; 60_exceptions.md R241). -/
inductive Error where
  | invalidOpcode
  | stackOverflow
  | stackUnderflow
  | addressOutOfRange (addr : Nat)
  deriving DecidableEq, Repr

/-- The state: 10_state.md R41, then the model's own fields. -/
structure State where
  /-- V0..VF (R20, R21) -/
  v : Vector Byte Config.numV
  /-- I (R22, R23) -/
  i : Word
  /-- PC (R24, R25) -/
  pc : Word
  /-- SP, the number of stack entries in use, 0..16 (R26) -/
  sp : Fin (Config.stackDepth + 1)
  /-- S[0]..S[15] (R26) -/
  stack : Vector Word Config.stackDepth
  /-- DT (R29) -/
  dt : Byte
  /-- ST (R29) -/
  st : Byte
  /-- D (R30) -/
  display : Display
  /-- M (R31), as the cells that differ from the reset contents -/
  mem : Memory
  /-- KEYS (R32) -/
  keys : Word
  /-- RUN_STATE (R33) -/
  runState : RunState
  /-- WAIT_X (R34) -/
  waitX : Nibble
  /-- ERR_CODE, ERR_PC, ERR_OPCODE, ERR_ADDR (R35) -/
  err : ErrorRecord
  /-- CONFIG (R36): bit 0 SHIFT_SRC, 1 SUB_FLAG, 2 FLAG_ORDER, 3 SPRITE_EDGE -/
  config : BitVec 4
  /-- LOAD_STATUS (R37) -/
  loadStatus : LoadStatus
  /-- MODEL: the parameter FONT (R40; log entry 4); no operation changes it -/
  font : Font
  /-- MODEL: the random byte carried by the STEP in progress (R38; log entry 3) -/
  rnd : Byte
  /-- MODEL: the host operations to come, oldest first (60_exceptions.md R261; log entry 1) -/
  pending : List HostOp
  /-- MODEL: how many STEPs took free values for their inputs (log entry 2) -/
  draws : Nat
  deriving DecidableEq, Repr

/-- Reasons for the machine to stop with a fault. There is none: every error of the CORE is a next state, HALTED
with the error record written (60_exceptions.md R242; log entry 13). -/
inductive Fault where
  deriving DecidableEq, Repr

/-- Reasons to have no meaning for an instruction. -/
inductive Refusal where
  /-- Raised by no arm of exec: every instruction has its meaning. Safe wherever it is raised. -/
  | notModelled (mnemonic : String)
  deriving DecidableEq, Repr

/-- The state RESET(cfg) leaves on a CORE whose FONT parameter is `font` (70_reset_and_hazards.md R270;
10_state.md R41); the model's own fields at the values of log entries 1, 2 and 3. -/
def State.resetWith (font : Font) (cfg : BitVec 4) : State where
  v := Vector.replicate _ 0
  i := 0
  pc := 0
  sp := 0
  stack := Vector.replicate _ 0
  dt := 0
  st := 0
  display := Vector.replicate _ 0
  mem := []
  keys := 0
  runState := .running
  waitX := 0
  err := ⟨.none, 0, 0, 0⟩
  config := cfg
  loadStatus := .success
  font := font
  rnd := 0
  pending := []
  draws := 0

/-- The machine right after RESET, with the default FONT and the configuration input of log entry 5. -/
def State.reset : State := State.resetWith Font.default Config.resetConfig

end Sys2Proof.Machine
end

