-- ==== Sys2Proof/Machine/Ops.lean ====
section
/-! DEFINITION. The named operations over registers, stack and memory, the range checks, and raising an error.
An operation that can raise answers `Except Error State`: a `raise` answers the error and no state, so the
writes made before it are discarded (00_scope.md R8, R9). -/

namespace Sys2Proof.Machine

/-! ### Registers -/

/-- `V[x]` (10_state.md R20). -/
def State.reg (s : State) (x : Nibble) : Byte := s.v[x.toNat]'x.isLt

/-- `V[x] <- b` (10_state.md R20). -/
def State.setReg (s : State) (x : Nibble) (b : Byte) : State := { s with v := s.v.set x.toNat b x.isLt }

/-- The index of VF, the flag register (10_state.md R21). -/
abbrev vf : Nibble := 0xF

/-- `I <- v` through the range check (10_state.md R23). -/
def State.writeI (s : State) (v : Nat) : Except Error State :=
  if v > 0xFFF then .error (.addressOutOfRange v) else .ok { s with i := BitVec.ofNat 16 v }

/-- `PC <- v` through the range check (10_state.md R24). -/
def State.writePc (s : State) (v : Nat) : Except Error State :=
  if v > 0xFFF then .error (.addressOutOfRange v) else .ok { s with pc := BitVec.ofNat 16 v }

/-- `Skip(c)`: if `c`, `PC <- PC + 2` (41_control_flow.md R124). -/
def State.skip (s : State) (c : Bool) : Except Error State :=
  if c then s.writePc (s.pc.toNat + 2) else .ok s

/-! ### The call stack -/

/-- `Push(v)` (10_state.md R27). -/
def State.push (s : State) (v : Word) : Except Error State :=
  if h : s.sp.val < Config.stackDepth then
    .ok { s with stack := s.stack.set s.sp.val v h, sp := ⟨s.sp.val + 1, by omega⟩ }
  else .error .stackOverflow

/-- `Pop()`: the popped address and the state after it (10_state.md R28). -/
def State.pop (s : State) : Except Error (Word × State) :=
  if h : 0 < s.sp.val then
    have below : s.sp.val - 1 < Config.stackDepth := by have := s.sp.isLt; omega
    .ok (s.stack[s.sp.val - 1], { s with sp := ⟨s.sp.val - 1, by omega⟩ })
  else .error .stackUnderflow

/-! ### Memory -/

/-- The byte at an address, as memory holds it. -/
def State.readByte (s : State) (a : Nat) : Byte := Memory.read s.font s.mem a

/-- The state with bytes stored at consecutive addresses. -/
def State.writeBytes (s : State) (a : Nat) (bytes : List Byte) : State :=
  { s with mem := Memory.writeBytes s.font s.mem a bytes }

/-- `CheckRange(base, len)`, for `len ≥ 1` (20_memory.md R56). -/
def checkRange (base len : Nat) : Except Error Unit :=
  if base + len - 1 > 0xFFF then .error (.addressOutOfRange (max base 0x1000)) else .ok ()

/-- `MemRead(addr, 1)` (20_memory.md R54). -/
def State.memRead (s : State) (a : Nat) : Except Error Byte :=
  if a > 0xFFF then .error (.addressOutOfRange a) else .ok (s.readByte a)

/-- `MemWrite(addr, 1, b)` (20_memory.md R55). -/
def State.memWrite (s : State) (a : Nat) (b : Byte) : Except Error State :=
  if a > 0xFFF then .error (.addressOutOfRange a) else .ok (s.writeBytes a [b])

/-- The bytes at `base .. base+len-1`: CheckRange, then the reads, whose own checks it makes pass
(20_memory.md R54, R56; DEDUCED, log entry 15). -/
def State.loadBlock (s : State) (base len : Nat) : Except Error (List Byte) := do
  checkRange base len
  return (List.range len).map fun k => s.readByte (base + k)

/-- Store bytes from `base` up: CheckRange, then the writes, whose own checks it makes pass
(20_memory.md R55, R56; DEDUCED, log entry 15). -/
def State.storeBlock (s : State) (base : Nat) (bytes : List Byte) : Except Error State := do
  checkRange base bytes.length
  return s.writeBytes base bytes

/-! ### Errors -/

/-- The code an error records (60_exceptions.md R241). -/
def Error.code : Error → ErrCode
  | .invalidOpcode => .invalidOpcode
  | .stackOverflow => .stackOverflow
  | .stackUnderflow => .stackUnderflow
  | .addressOutOfRange _ => .addressOutOfRange

/-- The ERR_ADDR an error records: the offending address for code 4, else 0 (60_exceptions.md R241, R242). -/
def Error.addr : Error → Word
  | .addressOutOfRange a => BitVec.ofNat 16 a
  | _ => 0

/-- `OnError`: the CORE's one way of taking an error (60_exceptions.md R242). `s` is a state of the failing
cycle before any write of the instruction; PC goes back to `pc0`. There is no return from an error beside it:
"The only way out of HALTED is RESET" (60_exceptions.md R250), which is `State.hostReset`. -/
def State.onError (s : State) (e : Error) (pc0 w : Word) : State :=
  { s with pc := pc0, err := ⟨e.code, pc0, w, e.addr⟩, runState := .halted }

/-- End an instruction: its next state, or the error it raised. While an instruction executes PC holds its
address plus 2 (40_fetch_cycle.md R102), and its word is its encoding, so `pc0 = PC - 2` and `w = encode i`
(DEDUCED, log entry 7). -/
def complete (i : Instr) (s : State) : Except Error State → Host.Outcome State Fault Refusal
  | .ok t => .next t
  | .error e => .next (s.onError e (s.pc - 2) (encode i))

/-! ### Fetch -/

/-- The word at PC, big-endian, and the state with PC advanced by 2 (40_fetch_cycle.md R101); a failure
answers the error with the word ERR_OPCODE records, 0 until both bytes are read (R105). -/
def State.fetch (s : State) : Except (Error × Word) (Word × State) :=
  match (do
    checkRange s.pc.toNat 2
    let first ← s.memRead s.pc.toNat
    let second ← s.memRead (s.pc.toNat + 1)
    return bytesToWord first second : Except Error Word) with
  | .error e => .error (e, 0)
  | .ok w =>
    match s.writePc (s.pc.toNat + 2) with
    | .error e => .error (e, w)
    | .ok t => .ok (w, t)

end Sys2Proof.Machine
end

