-- ==== Sys2Proof/Machine/Operands.lean ====
section
/-! DEFINITION. Operands that need more than a field: the quirk options of CONFIG, the key index, the decimal
digits, and the block of registers V0..Vx. -/

namespace Sys2Proof.Machine

/-! ### CONFIG (10_state.md R36) -/

/-- SHIFT_SRC = VY (bit 0). -/
def State.shiftsVy (s : State) : Bool := s.config.getLsbD 0

/-- SUB_FLAG = BORROW (bit 1). -/
def State.flagsBorrow (s : State) : Bool := s.config.getLsbD 1

/-- FLAG_ORDER = BEFORE (bit 2). -/
def State.flagsBefore (s : State) : Bool := s.config.getLsbD 2

/-- SPRITE_EDGE = WRAP (bit 3). -/
def State.wrapsSprites (s : State) : Bool := s.config.getLsbD 3

/-! ### Keys -/

/-- `KeyIndex(v)`: a key number 0..15, or AddressOutOfRange with the value itself (46_input.md R225). -/
def keyIndex (v : Byte) : Except Error Nat :=
  if v.toNat > 0x0F then .error (.addressOutOfRange v.toNat) else .ok v.toNat

/-- The lowest `i` in 0..15 with bit `i` set (46_input.md R229). -/
def lowestSet (w : Word) : Option Nat := (List.range Config.keyCount).find? fun k => w.getLsbD k

/-! ### Decimal digits (43_index_memory.md R173) -/

/-- `v / 100`. -/
def hundreds (v : Byte) : Byte := BitVec.ofNat 8 (v.toNat / 100)

/-- `(v / 10) % 10`. -/
def tens (v : Byte) : Byte := BitVec.ofNat 8 (v.toNat / 10 % 10)

/-- `v % 10`. -/
def units (v : Byte) : Byte := BitVec.ofNat 8 (v.toNat % 10)

/-! ### The block V0..Vx (30_encoding.md R75) -/

/-- The values of V0..Vx, in order: x + 1 bytes (43_index_memory.md R174). -/
def State.regBlock (s : State) (x : Nibble) : List Byte :=
  (List.range (x.toNat + 1)).map fun k => s.reg (BitVec.ofNat 4 k)

/-- Write bytes to V[k], V[k+1], ... in order (43_index_memory.md R175). -/
def State.setRegsFrom (s : State) : Nat → List Byte → State
  | _, [] => s
  | k, b :: bs => (s.setReg (BitVec.ofNat 4 k) b).setRegsFrom (k + 1) bs

end Sys2Proof.Machine
end

