-- ==== Sys2Proof/Machine/Flags.lean ====
section
/-! DEFINITION. The flag computations (42_alu.md R147 to R150): VF is the CORE's only flag. -/

namespace Sys2Proof.Machine

/-- Carry out of bit 7 of `a + b` (42_alu.md R151). -/
def carry (a b : Byte) : Bool := a.toNat + b.toNat > 0xFF

/-- `SubFlag(m, s)`: no borrow (`m ≥ s`) under NOT_BORROW, borrow (`m < s`) under BORROW (42_alu.md R149). -/
def State.subFlag (st : State) (m s : Byte) : Bool :=
  if st.flagsBorrow then m.toNat < s.toNat else s.toNat ≤ m.toNat

/-- `ShiftSrc(a, b)`: `a` under VX, `b` under VY (42_alu.md R150). -/
def State.shiftSrc (st : State) (a b : Byte) : Byte := if st.shiftsVy then b else a

/-- `FlagOp(result, flag)` (42_alu.md R148). AFTER: the result, then the flag last. BEFORE: the flag first, then
both operands read again and the result written. -/
def State.flagOp (s : State) (x y : Nibble) (result : Byte → Byte → Byte) (flag : Byte → Byte → Bool) : State :=
  let f := boolByte (flag (s.reg x) (s.reg y))
  if s.flagsBefore then
    let s1 := s.setReg vf f
    s1.setReg x (result (s1.reg x) (s1.reg y))
  else
    (s.setReg x (result (s.reg x) (s.reg y))).setReg vf f

end Sys2Proof.Machine
end

