-- ==== Sys2Proof/Machine/Alu.lean ====
section
/-! DEFINITION. Register loads and the ALU (42_alu.md). None of these raises an error or touches memory or PC. -/

namespace Sys2Proof.Machine

/-- 6xkk LD Vx, byte: `V[x] <- kk` (R141). -/
def execLdImm (x : Nibble) (kk : Byte) (s : State) : Host.Outcome State Fault Refusal :=
  .next (s.setReg x kk)

/-- 7xkk ADD Vx, byte: `V[x] <- trunc_8(V[x] + kk)`, no flag (R142). -/
def execAddImm (x : Nibble) (kk : Byte) (s : State) : Host.Outcome State Fault Refusal :=
  .next (s.setReg x (s.reg x + kk))

/-- 8xy0 LD Vx, Vy: `V[x] <- V[y]` (R143). -/
def execLdReg (x y : Nibble) (s : State) : Host.Outcome State Fault Refusal :=
  .next (s.setReg x (s.reg y))

/-- 8xy1 OR Vx, Vy: VF is not written unless x = 0xF (R144). -/
def execOrReg (x y : Nibble) (s : State) : Host.Outcome State Fault Refusal :=
  .next (s.setReg x (s.reg x ||| s.reg y))

/-- 8xy2 AND Vx, Vy: VF is not written unless x = 0xF (R145). -/
def execAndReg (x y : Nibble) (s : State) : Host.Outcome State Fault Refusal :=
  .next (s.setReg x (s.reg x &&& s.reg y))

/-- 8xy3 XOR Vx, Vy: VF is not written unless x = 0xF (R146). -/
def execXorReg (x y : Nibble) (s : State) : Host.Outcome State Fault Refusal :=
  .next (s.setReg x (s.reg x ^^^ s.reg y))

/-- 8xy4 ADD Vx, Vy: result `trunc_8(a + b)`, flag the carry (R151). -/
def execAddReg (x y : Nibble) (s : State) : Host.Outcome State Fault Refusal :=
  .next (s.flagOp x y (fun a b => a + b) carry)

/-- 8xy5 SUB Vx, Vy: result `trunc_8(a - b)`, flag `SubFlag(a, b)` (R153). -/
def execSub (x y : Nibble) (s : State) : Host.Outcome State Fault Refusal :=
  .next (s.flagOp x y (fun a b => a - b) fun a b => s.subFlag a b)

/-- 8xy6 SHR Vx, Vy: result `ShiftSrc(a, b) >> 1`, flag its bit 0 (R157). -/
def execShr (x y : Nibble) (s : State) : Host.Outcome State Fault Refusal :=
  .next (s.flagOp x y (fun a b => s.shiftSrc a b >>> 1) fun a b => (s.shiftSrc a b).getLsbD 0)

/-- 8xy7 SUBN Vx, Vy: result `trunc_8(b - a)`, flag `SubFlag(b, a)` (R155). -/
def execSubn (x y : Nibble) (s : State) : Host.Outcome State Fault Refusal :=
  .next (s.flagOp x y (fun a b => b - a) fun a b => s.subFlag b a)

/-- 8xyE SHL Vx, Vy: result `trunc_8(ShiftSrc(a, b) << 1)`, flag its bit 7 (R158). -/
def execShl (x y : Nibble) (s : State) : Host.Outcome State Fault Refusal :=
  .next (s.flagOp x y (fun a b => s.shiftSrc a b <<< 1) fun a b => (s.shiftSrc a b).getLsbD 7)

/-- Cxkk RND Vx, byte: `V[x] <- rnd & kk`, `rnd` the byte this STEP carries (R159; 40_fetch_cycle.md R100). -/
def execRnd (x : Nibble) (kk : Byte) (s : State) : Host.Outcome State Fault Refusal :=
  .next (s.setReg x (s.rnd &&& kk))

end Sys2Proof.Machine
end

