-- ==== Sys2Proof/Machine/ControlFlow.lean ====
section
/-! DEFINITION. Control flow (41_control_flow.md). While a meaning runs, PC holds the instruction's address
plus 2 (R102). -/

namespace Sys2Proof.Machine

/-- 00EE RET: `PC <- Pop()` (R120). -/
def execRet (s : State) : Host.Outcome State Fault Refusal :=
  complete .ret s do
    let (target, t) ← s.pop
    t.writePc target.toNat

/-- 1nnn JP addr: `PC <- zext_16(nnn)` (R121). -/
def execJpAddr (nnn : Addr) (s : State) : Host.Outcome State Fault Refusal :=
  complete (.jpAddr nnn) s (s.writePc nnn.toNat)

/-- 2nnn CALL addr: `Push(PC)`, then `PC <- zext_16(nnn)` (R122). -/
def execCall (nnn : Addr) (s : State) : Host.Outcome State Fault Refusal :=
  complete (.call nnn) s do
    let t ← s.push s.pc
    t.writePc nnn.toNat

/-- 3xkk SE Vx, byte: `Skip(V[x] == kk)` (R125). -/
def execSeImm (x : Nibble) (kk : Byte) (s : State) : Host.Outcome State Fault Refusal :=
  complete (.seImm x kk) s (s.skip (s.reg x == kk))

/-- 4xkk SNE Vx, byte: `Skip(V[x] != kk)` (R126). -/
def execSneImm (x : Nibble) (kk : Byte) (s : State) : Host.Outcome State Fault Refusal :=
  complete (.sneImm x kk) s (s.skip (s.reg x != kk))

/-- 5xy0 SE Vx, Vy: `Skip(V[x] == V[y])` (R127). -/
def execSeReg (x y : Nibble) (s : State) : Host.Outcome State Fault Refusal :=
  complete (.seReg x y) s (s.skip (s.reg x == s.reg y))

/-- 9xy0 SNE Vx, Vy: `Skip(V[x] != V[y])` (R128). -/
def execSneReg (x y : Nibble) (s : State) : Host.Outcome State Fault Refusal :=
  complete (.sneReg x y) s (s.skip (s.reg x != s.reg y))

/-- Bnnn JP V0, addr: `PC <- zext_16(nnn) + zext_16(V[0])`, no wrap (R129). -/
def execJpV0 (nnn : Addr) (s : State) : Host.Outcome State Fault Refusal :=
  complete (.jpV0 nnn) s (s.writePc (nnn.toNat + (s.reg 0).toNat))

end Sys2Proof.Machine
end

