-- ==== Sys2Proof/Machine/Draw.lean ====
section
/-! DEFINITION. The display XOR-blit unit (44_display.md). -/

namespace Sys2Proof.Machine

/-- `D[x][y]`; outside the 64 x 32 field there is no pixel, and it reads as clear (10_state.md R30). -/
def Display.pixel (d : Display) (x y : Nat) : Bool := if h : y < Config.displayH then d[y].getLsbD x else false

/-- `D[x][y] <- D[x][y] ^ 1`. -/
def Display.toggle (d : Display) (x y : Nat) : Display :=
  if h : y < Config.displayH then d.set y (d[y] ^^^ BitVec.twoPow Config.displayW x) else d

/-- The display with every pixel 0. -/
def Display.blank : Display := Vector.replicate _ 0

/-- Where a sprite pixel at the unreduced position lands: reduced modulo the field under WRAP, dropped outside
the field under CLIP (R192). -/
def placePixel (wrap : Bool) (px py : Nat) : Option (Nat × Nat) :=
  if wrap then some (px % Config.displayW, py % Config.displayH)
  else if px ≥ Config.displayW ∨ py ≥ Config.displayH then none
  else some (px, py)

/-- The pixels one sprite row draws: bit 7 is column offset 0 (R191). -/
def rowPixels (wrap : Bool) (ox py : Nat) (row : Byte) : List (Nat × Nat) :=
  (List.range 8).filterMap fun c => if row.getLsbD (7 - c) then placePixel wrap (ox + c) py else none

/-- The pixels a sprite draws, in the order of R191's loops: rows top to bottom, columns left to right. -/
def spritePixels (wrap : Bool) (ox : Nat) : Nat → List Byte → List (Nat × Nat)
  | _, [] => []
  | py, row :: rows => rowPixels wrap ox py row ++ spritePixels wrap ox (py + 1) rows

/-- XOR pixels onto the display one after the other; the flag says whether one of them was set (R191). -/
def Display.blit (d : Display) (hit : Bool) : List (Nat × Nat) → Display × Bool
  | [] => (d, hit)
  | (px, py) :: ps => Display.blit (d.toggle px py) (hit || d.pixel px py) ps

/-- The rows of a sprite: `if n ≥ 1: CheckRange(I, n)`, then the n bytes at I (R191). -/
def State.spriteRows (s : State) (n : Nibble) : Except Error (List Byte) :=
  if n = 0 then .ok [] else s.loadBlock s.i.toNat n.toNat

/-- 00E0 CLS: every pixel 0 (R190). -/
def execCls (s : State) : Host.Outcome State Fault Refusal :=
  .next { s with display := Display.blank }

/-- Dxyn DRW Vx, Vy, nib: XOR-blit the sprite at (V[x], V[y]), read before VF is written; then `VF <- hit`
(R191). -/
def execDrw (x y n : Nibble) (s : State) : Host.Outcome State Fault Refusal :=
  complete (.drw x y n) s do
    let rows ← s.spriteRows n
    let pixels := spritePixels s.wrapsSprites (s.reg x).toNat (s.reg y).toNat rows
    let drawn := Display.blit s.display false pixels
    return { s with display := drawn.1 }.setReg vf (boolByte drawn.2)

end Sys2Proof.Machine
end

