-- ==== Sys2Proof/Machine/IndexMemory.lean ====
section
/-! DEFINITION. The index register and the memory transfers (43_index_memory.md). -/

namespace Sys2Proof.Machine

/-- Annn LD I, addr: `I <- zext_16(nnn)` (R170). -/
def execLdI (nnn : Addr) (s : State) : Host.Outcome State Fault Refusal :=
  complete (.ldI nnn) s (s.writeI nnn.toNat)

/-- Fx1E ADD I, Vx: the exact sum, range-checked; VF is not written (R171). -/
def execAddI (x : Nibble) (s : State) : Host.Outcome State Fault Refusal :=
  complete (.addI x) s (s.writeI (s.i.toNat + (s.reg x).toNat))

/-- Fx29 LD F, Vx: `I <- 5 * zext_16(V[x])`, no mask (R172). -/
def execLdF (x : Nibble) (s : State) : Host.Outcome State Fault Refusal :=
  complete (.ldF x) s (s.writeI (5 * (s.reg x).toNat))

/-- Fx33 LD B, Vx: the three decimal digits at I, I+1, I+2, most significant first (R173). -/
def execLdB (x : Nibble) (s : State) : Host.Outcome State Fault Refusal :=
  complete (.ldB x) s do
    checkRange s.i.toNat 3
    let s1 ← s.memWrite s.i.toNat (hundreds (s.reg x))
    let s2 ← s1.memWrite (s.i.toNat + 1) (tens (s.reg x))
    s2.memWrite (s.i.toNat + 2) (units (s.reg x))

/-- Fx55 LD [I], Vx: V0..Vx to I..I+x, I unchanged (R174). -/
def execLdMemV (x : Nibble) (s : State) : Host.Outcome State Fault Refusal :=
  complete (.ldMemV x) s (s.storeBlock s.i.toNat (s.regBlock x))

/-- Fx65 LD Vx, [I]: V0..Vx from I..I+x, I unchanged (R175). -/
def execLdVMem (x : Nibble) (s : State) : Host.Outcome State Fault Refusal :=
  complete (.ldVMem x) s do
    let bytes ← s.loadBlock s.i.toNat (x.toNat + 1)
    return s.setRegsFrom 0 bytes

end Sys2Proof.Machine
end

