-- ==== Sys2Proof/Machine/Input.lean ====
section
/-! DEFINITION. Key input (46_input.md). KEYS already holds this STEP's vector (40_fetch_cycle.md R100). -/

namespace Sys2Proof.Machine

/-- Ex9E SKP Vx: check the key index, then `Skip(KEYS[k] == 1)` (R226). -/
def execSkp (x : Nibble) (s : State) : Host.Outcome State Fault Refusal :=
  complete (.skp x) s do
    let k ← keyIndex (s.reg x)
    s.skip (s.keys.getLsbD k)

/-- ExA1 SKNP Vx: check the key index, then `Skip(KEYS[k] == 0)` (R227). -/
def execSknp (x : Nibble) (s : State) : Host.Outcome State Fault Refusal :=
  complete (.sknp x) s do
    let k ← keyIndex (s.reg x)
    s.skip (!s.keys.getLsbD k)

/-- Fx0A LD Vx, K, the executing STEP: `WAIT_X <- x`, `RUN_STATE <- AWAITING_KEY` (R228). -/
def execLdVK (x : Nibble) (s : State) : Host.Outcome State Fault Refusal :=
  .next { s with waitX := x, runState := .awaitingKey }

/-- `KeyResume(edges)`: with no edge nothing changes; else V[WAIT_X] gets the lowest edge's index and the CORE
runs again (R229). -/
def State.keyResume (s : State) (edges : Word) : State :=
  match lowestSet edges with
  | none => s
  | some k => { s.setReg s.waitX (BitVec.ofNat 8 k) with runState := .running }

end Sys2Proof.Machine
end

