-- ==== Sys2Proof/Machine/Timers.lean ====
section
/-! DEFINITION. The timer instructions and the tick (45_timers.md). -/

namespace Sys2Proof.Machine

/-- Fx07 LD Vx, DT: `V[x] <- DT` (R210). -/
def execLdVDt (x : Nibble) (s : State) : Host.Outcome State Fault Refusal :=
  .next (s.setReg x s.dt)

/-- Fx15 LD DT, Vx: `DT <- V[x]` (R211). -/
def execLdDtV (x : Nibble) (s : State) : Host.Outcome State Fault Refusal :=
  .next { s with dt := s.reg x }

/-- Fx18 LD ST, Vx: `ST <- V[x]` (R212). -/
def execLdStV (x : Nibble) (s : State) : Host.Outcome State Fault Refusal :=
  .next { s with st := s.reg x }

/-- A timer one tick on: "decremented by exactly 1 ... while > 0; never decremented below 0" (R213). -/
def tickDown (t : Byte) : Byte := if t.toNat > 0 then t - 1 else t

/-- TICK: both timers, in every run state (R213). -/
def State.hostTick (s : State) : State := { s with dt := tickDown s.dt, st := tickDown s.st }

end Sys2Proof.Machine
end

