-- ==== Sys2Proof/Machine/Cycle.lean ====
section
/-! DEFINITION. One cycle and the host operations RESET, LOAD and STEP (40_fetch_cycle.md R100, R101;
70_reset_and_hazards.md R270, R274); TICK is in Timers.lean. -/

namespace Sys2Proof.Machine

/-- `Cycle(rnd)`: fetch, decode, execute (40_fetch_cycle.md R101), the checks in the order of R106. -/
def cycle (s : State) : Host.Outcome State Fault Refusal :=
  match s.fetch with
  | .error (e, w) => .next (s.onError e s.pc w)
  | .ok (w, t) =>
    match decodeWord w with
    | .error _ => .next (s.onError .invalidOpcode s.pc w)
    | .ok i => exec i t

/-- STEP's latch: KEYS and the random byte of this STEP (40_fetch_cycle.md R100). -/
def State.latched (s : State) (keys : Word) (rnd : Byte) : State := { s with keys := keys, rnd := rnd }

/-- `STEP(K, rnd)`: the edges, the latch, then by RUN_STATE (40_fetch_cycle.md R100). -/
def hostStep (keys : Word) (rnd : Byte) (s : State) : Host.Outcome State Fault Refusal :=
  match s.runState with
  | .halted => .next (s.latched keys rnd)
  | .awaitingKey => .next ((s.latched keys rnd).keyResume (keys &&& ~~~s.keys))
  | .running => cycle (s.latched keys rnd)

/-- `RESET(cfg)` (70_reset_and_hazards.md R270). The parameter FONT, the host operations still to come and the
model's input fields are no State Store and stay. -/
def State.hostReset (s : State) (cfg : BitVec 4) : State :=
  { State.resetWith s.font cfg with rnd := s.rnd, pending := s.pending, draws := s.draws }

/-- `LOAD(rom)` (70_reset_and_hazards.md R274). -/
def State.hostLoad (s : State) (rom : List Byte) : State :=
  if Config.romBase + rom.length > 0x1000 then { s with loadStatus := .romTooLarge }
  else
    State.writeBytes { s with pc := BitVec.ofNat 16 Config.romBase, loadStatus := .success } Config.romBase rom

/-- One host operation (60_exceptions.md R260). -/
def hostOp (op : HostOp) (s : State) : Host.Outcome State Fault Refusal :=
  match op with
  | .reset cfg => .next (s.hostReset cfg)
  | .load rom => .next (s.hostLoad rom)
  | .step keys rnd => hostStep keys rnd s
  | .tick => .next s.hostTick

/-- The next host operation: the oldest pending one; where none is pending, a STEP whose key vector and random
byte are free values (DESIGN CHOICE, log entries 1 and 2). -/
def hostNext (s : State) : Host.Outcome State Fault Refusal :=
  match s.pending with
  | op :: rest => hostOp op { s with pending := rest }
  | [] => hostStep (Config.freeKeys s.draws) (Config.freeRandom s.draws) { s with draws := s.draws + 1 }

/-- Where the next STEP fetches: PC, or ROM_BASE if no instruction can run at PC (70_reset_and_hazards.md R286). -/
def State.fetchPlace (s : State) : Word := if s.pc.toNat ≤ 0xFFD then s.pc else BitVec.ofNat 16 Config.romBase

/-- `s` made to fetch and run the word `w` in its very next step: the word where STEP fetches, the CORE running,
and a STEP at the head of the host's operations (log entry 6). -/
def State.placeWord (s : State) (w : Word) : State :=
  let ready : State :=
    { s with
      pc := s.fetchPlace
      runState := .running
      pending := .step s.keys s.rnd :: s.pending }
  ready.writeBytes s.fetchPlace.toNat (wordToBytes w)

end Sys2Proof.Machine
end

