-- ==== Sys2Proof/Machine/Step.lean ====
section
/-! DEFINITION. One step of the machine: one host operation. -/

namespace Sys2Proof.Machine

/-- One step: the next host operation, atomic and whole (60_exceptions.md R261). -/
def step (s : State) : Host.Outcome State Fault Refusal := hostNext s

/-- `s` with the opcode table's instruction of bits `w` stored where the next step fetches. -/
def State.withFetchWord (s : State) (nbits w : Nat) : State := s.placeWord (tableWord nbits w)

end Sys2Proof.Machine
end

