-- ==== Sys2Proof/Machine/Ports.lean ====
section
/-! DEFINITION. The CORE's outputs: pure functions of the state, read without side effect (10_state.md R39;
60_exceptions.md R260). -/

namespace Sys2Proof.Machine

/-- SOUND = `bool(ST != 0)` (45_timers.md R214). -/
def State.sound (s : State) : Bool := s.st != 0

/-- DISPLAY: all 2048 bits of D, pixel (x, y) at bit number `y*64 + x` (44_display.md R195). -/
def State.displayPort (s : State) : BitVec 2048 :=
  s.display.toList.foldr (fun row above => (above <<< 64) ||| row.zeroExtend 2048) 0

/-- RUN_STATE's two bits (10_state.md R33). -/
def RunState.bits : RunState → BitVec 2
  | .running => 0b00
  | .awaitingKey => 0b01
  | .halted => 0b10

/-- ERR_CODE's three bits (10_state.md R35). -/
def ErrCode.bits : ErrCode → BitVec 3
  | .none => 0
  | .invalidOpcode => 1
  | .stackOverflow => 2
  | .stackUnderflow => 3
  | .addressOutOfRange => 4

/-- LOAD_STATUS's three bits (10_state.md R37). -/
def LoadStatus.bits : LoadStatus → BitVec 3
  | .success => 0
  | .romTooLarge => 5

/-- STATUS: the status and configuration registers as the host reads them (60_exceptions.md R260). -/
structure StatusPort where
  runState : BitVec 2
  waitX : Nibble
  errCode : BitVec 3
  errPc : Word
  errOpcode : Word
  errAddr : Word
  config : BitVec 4
  loadStatus : BitVec 3
  deriving DecidableEq, Repr

/-- The STATUS output of a state. -/
def State.status (s : State) : StatusPort where
  runState := s.runState.bits
  waitX := s.waitX
  errCode := s.err.code.bits
  errPc := s.err.pc
  errOpcode := s.err.opcode
  errAddr := s.err.addr
  config := s.config
  loadStatus := s.loadStatus.bits

end Sys2Proof.Machine
end

