-- ==== Sys2Proof/Safety.lean ====
section
/-! DEFINITION. The words claims use: the parts of the state and what a step leaves unchanged, the invariant of a
well-formed state, a safe state, and the pixels a sprite covers. -/

namespace Sys2Proof.Machine

/-! ### Frames -/

/-- The parts a frame names: each register, each stack slot, each pixel and each byte of memory by itself. -/
inductive Part where
  | reg (x : Nibble)
  | i
  | pc
  | sp
  | slot (j : Fin Config.stackDepth)
  | dt
  | st
  | pixel (x y : Nat)
  | byte (a : Nat)
  | keys
  | runState
  | waitX
  | err
  | config
  | loadStatus
  | font
  | rnd
  | pending
  | draws
  deriving DecidableEq, Repr

/-- The part has the same value in both states; a byte is compared as the model reads it. -/
def Part.Same (s t : State) : Part → Prop
  | .reg x => t.reg x = s.reg x
  | .i => t.i = s.i
  | .pc => t.pc = s.pc
  | .sp => t.sp = s.sp
  | .slot j => t.stack[j] = s.stack[j]
  | .dt => t.dt = s.dt
  | .st => t.st = s.st
  | .pixel x y => t.display.pixel x y = s.display.pixel x y
  | .byte a => t.readByte a = s.readByte a
  | .keys => t.keys = s.keys
  | .runState => t.runState = s.runState
  | .waitX => t.waitX = s.waitX
  | .err => t.err = s.err
  | .config => t.config = s.config
  | .loadStatus => t.loadStatus = s.loadStatus
  | .font => t.font = s.font
  | .rnd => t.rnd = s.rnd
  | .pending => t.pending = s.pending
  | .draws => t.draws = s.draws

/-- Every part of the state outside `written` is unchanged from `s` to `t`. -/
def UnchangedBut (written : Set Part) (s t : State) : Prop := ∀ p, p ∉ written → p.Same s t

/-- The parts `byte base`, ..., `byte (base + len - 1)`. -/
def byteParts (base len : Nat) : Set Part := {p | ∃ k, k < len ∧ p = .byte (base + k)}

/-- Every pixel. -/
def pixelParts : Set Part := {p | ∃ x y, p = .pixel x y}

/-- The registers V0..Vx. -/
def regParts (x : Nibble) : Set Part := {p | ∃ j : Nibble, j.toNat ≤ x.toNat ∧ p = .reg j}

/-- What STEP itself writes before the cycle, and the model's list of host operations with its counter. -/
def inputParts : Set Part := {.keys, .rnd, .pending, .draws}

/-! ### The invariant -/

/-- What the spec says of every state between operations. -/
structure State.Inv (s : State) : Prop where
  /-- "PC always holds a value in 0x000–0xFFF" (10_state.md R24) -/
  pc_le : s.pc.toNat ≤ 0xFFF
  /-- "I always holds a value in 0x000–0xFFF" (10_state.md R23) -/
  i_le : s.i.toNat ≤ 0xFFF
  /-- a return address is a PC value (10_state.md R26; 41_control_flow.md R120) -/
  slot_le : ∀ j : Fin Config.stackDepth, s.stack[j].toNat ≤ 0xFFF
  /-- memory is in its canonical form (the model's own) -/
  mem_wf : Memory.wf s.font s.mem = true
  /-- HALTED exactly when an error is recorded (10_state.md R33, R35) -/
  halted_iff : s.runState = .halted ↔ s.err.code ≠ .none
  /-- no error, no record (10_state.md R35) -/
  no_record : s.err.code = .none → s.err.pc = 0 ∧ s.err.opcode = 0
  /-- ERR_ADDR is 0 unless the code is ADDRESS_OUT_OF_RANGE (10_state.md R35) -/
  addr_zero : s.err.code ≠ .addressOutOfRange → s.err.addr = 0

/-- A safe state: no error has been raised since RESET (10_state.md R33). -/
abbrev State.safe (s : State) : Prop := s.runState ≠ .halted

/-! ### Errors, fetch and draw, as claims name them -/

/-- `t` is `s` with the error taken: HALTED, the record written, PC at the failing instruction, nothing else
changed (60_exceptions.md R242). -/
def HaltedWith (s t : State) (code : ErrCode) (pc0 w addr : Word) : Prop :=
  t.runState = .halted ∧ t.err = ⟨code, pc0, w, addr⟩ ∧ t.pc = pc0 ∧ UnchangedBut {.runState, .err, .pc} s t

/-- The word at an address, big-endian (20_memory.md R52). -/
def State.wordAt (s : State) (a : Nat) : Word := bytesToWord (s.readByte a) (s.readByte (a + 1))

/-- The state the fetched instruction runs from: the inputs latched and PC past the word (40_fetch_cycle.md R102). -/
def State.fetched (s : State) (keys : Word) (rnd : Byte) : State :=
  { s with keys := keys, rnd := rnd, pc := s.pc + 2 }

/-- Instructions executed one after the other, each from PC past its own word as fetch leaves it
(40_fetch_cycle.md R102). -/
def execSeq : List Instr → State → Host.Outcome State Fault Refusal
  | [], s => .next s
  | i :: is, s =>
    match exec i { s with pc := s.pc + 2 } with
    | .next t => execSeq is t
    | o => o

/-- Bit `c` from the left of row `r` of the sprite at I (44_display.md R191). -/
def State.spriteBit (s : State) (r c : Nat) : Bool := (s.readByte (s.i.toNat + r)).getLsbD (7 - c)

/-- The n-row sprite at I drawn at (V[x], V[y]) draws pixel (px, py): some 1 bit of it lands there, modulo the
field under WRAP, unreduced under CLIP (44_display.md R191, R192). -/
def State.SpriteDraws (s : State) (x y n : Nibble) (px py : Nat) : Prop :=
  ∃ r c, r < n.toNat ∧ c < 8 ∧ s.spriteBit r c = true ∧
    if s.wrapsSprites then ((s.reg x).toNat + c) % 64 = px ∧ ((s.reg y).toNat + r) % 32 = py
    else (s.reg x).toNat + c = px ∧ (s.reg y).toNat + r = py

/-! ### Shapes of effects -/

/-- The instruction completes: V[x] receives `b` and nothing else changes. -/
def WritesReg (i : Instr) (s : State) (x : Nibble) (b : Byte) : Prop :=
  ∃ t, exec i s = .next t ∧ t.reg x = b ∧ UnchangedBut {.reg x} s t

/-- The instruction completes as a skip on the condition `c`: PC moves on by 2 iff `c`, an error where that leaves
the address space, nothing else changed (41_control_flow.md R124). -/
def SkipsWhen (i : Instr) (s : State) (c : Prop) : Prop :=
  (¬c → exec i s = .next s) ∧
  (c → s.pc.toNat ≤ 0xFFD → ∃ t, exec i s = .next t ∧ t.pc = s.pc + 2 ∧ UnchangedBut {.pc} s t) ∧
  (c → s.pc.toNat = 0xFFE →
    ∃ t, exec i s = .next t ∧ HaltedWith s t .addressOutOfRange 0xFFC (encode i) 0x1000)

/-- The same skip taken by an instruction at the odd address 0xFFD, which computes 0x1001: "addr = v" of 10_state.md
R24, where 60_exceptions.md R246 names only the instruction at 0xFFC (DEDUCED, log entry 8). -/
def SkipLeavesTheTop (i : Instr) (s : State) : Prop :=
  s.pc.toNat = 0xFFF → ∃ t, exec i s = .next t ∧ HaltedWith s t .addressOutOfRange 0xFFD (encode i) 0x1001

/-- The instruction completes as a flag-writing operation with `result` and `flag` of the values of V[x] and V[y],
in the order CONFIG.FLAG_ORDER selects (42_alu.md R148). -/
def FlagOperation (i : Instr) (s : State) (x y : Nibble) (result : Nat → Nat → Nat) (flag : Nat → Nat → Prop) :
    Prop :=
  ∃ t f, exec i s = .next t ∧ UnchangedBut {.reg x, .reg vf} s t ∧
    (flag (s.reg x).toNat (s.reg y).toNat → f = 1) ∧ (¬flag (s.reg x).toNat (s.reg y).toNat → f = 0) ∧
    if s.config.getLsbD 2 then
      (t.reg x).toNat =
        result (if x = vf then f else s.reg x).toNat (if y = vf then f else s.reg y).toNat ∧
      (x ≠ vf → t.reg vf = f)
    else
      (x ≠ vf → (t.reg x).toNat = result (s.reg x).toNat (s.reg y).toNat) ∧ t.reg vf = f

/-- The parts an instruction's own effect may write (10_state.md R20 to R34, each with its list of writers). -/
def footprint (s : State) : Instr → Set Part
  | .cls => pixelParts
  | .ret => {.pc, .sp}
  | .jpAddr _ | .jpV0 _ => {.pc}
  | .call _ => {p | p = .pc ∨ p = .sp ∨ ∃ j : Fin Config.stackDepth, j.val = s.sp.val ∧ p = .slot j}
  | .seImm _ _ | .sneImm _ _ | .seReg _ _ | .sneReg _ _ | .skp _ | .sknp _ => {.pc}
  | .ldImm x _ | .addImm x _ | .rnd x _ | .ldVDt x => {.reg x}
  | .ldReg x _ | .orReg x _ | .andReg x _ | .xorReg x _ => {.reg x}
  | .addReg x _ | .sub x _ | .shr x _ | .subn x _ | .shl x _ => {.reg x, .reg vf}
  | .ldI _ | .addI _ | .ldF _ => {.i}
  | .drw _ _ _ => pixelParts ∪ {.reg vf}
  | .ldVK _ => {.waitX, .runState}
  | .ldDtV _ => {.dt}
  | .ldStV _ => {.st}
  | .ldB _ => byteParts s.i.toNat 3
  | .ldMemV x => byteParts s.i.toNat (x.toNat + 1)
  | .ldVMem x => regParts x

/-- The instruction may write VF: the flag writers, and those that write V[x] with x = 0xF (10_state.md R21). Fx0A
writes V[x] only at its completion, in a later STEP. -/
def WritesVf : Instr → Prop
  | .addReg _ _ | .sub _ _ | .shr _ _ | .subn _ _ | .shl _ _ | .drw _ _ _ => True
  | .ldImm x _ | .addImm x _ | .rnd x _ | .ldVDt x | .ldVMem x => x = vf
  | .ldReg x _ | .orReg x _ | .andReg x _ | .xorReg x _ => x = vf
  | _ => False

/-- Every value RESET(cfg) leaves, for the FONT parameter `font` (70_reset_and_hazards.md R270). -/
structure State.IsReset (s : State) (font : Font) (cfg : BitVec 4) : Prop where
  font_bytes : ∀ (a : Nat) (h : a < Config.fontSize), s.readByte a = font[a]
  zero_bytes : ∀ a, Config.fontSize ≤ a → a < Config.memSize → s.readByte a = 0
  regs : ∀ x, s.reg x = 0
  slots : ∀ j : Fin Config.stackDepth, s.stack[j] = 0
  i_pc_sp : s.i = 0 ∧ s.pc = 0 ∧ s.sp.val = 0
  timers : s.dt = 0 ∧ s.st = 0
  pixels : ∀ x y, s.display.pixel x y = false
  keys : s.keys = 0
  running : s.runState = .running ∧ s.waitX = 0
  no_error : s.err = ⟨.none, 0, 0, 0⟩
  load_status : s.loadStatus = .success
  config : s.config = cfg

end Sys2Proof.Machine
end

