-- ==== Sys2Proof/Certificates/Slice0/Obligations.lean ====
section
/-! DEFINITION. The statements for the provers. Statements about one instruction are about `exec i s`: `s` is the
state fetch leaves, PC past the instruction's word (40_fetch_cycle.md R102); StepRunsTheDecodedInstruction carries
them to `step`. Each holds for every CONFIG, FONT and list of host operations, since `s` ranges over all states. -/

open Sys2Proof Sys2Proof.Machine

/-! ### Encoding -/

/-- Decode and encode agree, from the instruction's side, through the bytes as memory holds them. -/
def Obligations.EncodedInstructionDecodesToItself : Prop :=
  ∀ (i : Instr) (rest : List Byte), decodeBytes (wordToBytes (encode i) ++ rest) = .ok (i, rest)

/-- Decode and encode agree, from the word's side: no bit of a valid word is dropped. -/
def Obligations.DecodedWordEncodesBack : Prop :=
  ∀ (w : Word) (i : Instr), decodeWord w = .ok i → encode i = w

/-- 30_encoding.md R78 to R83: the valid words, by arithmetic on the word's number. -/
def Obligations.ValidWordsAreExactlyTheListedPatterns : Prop :=
  ∀ w : Word, (∃ i, decodeWord w = .ok i) ↔
    (w.toNat = 0x00E0 ∨ w.toNat = 0x00EE ∨
     w.toNat / 4096 ∈ [0x1, 0x2, 0x3, 0x4, 0x6, 0x7, 0xA, 0xB, 0xC, 0xD] ∨
     (w.toNat / 4096 ∈ [0x5, 0x9] ∧ w.toNat % 16 = 0) ∨
     (w.toNat / 4096 = 0x8 ∧ w.toNat % 16 ∈ [0x0, 0x1, 0x2, 0x3, 0x4, 0x5, 0x6, 0x7, 0xE]) ∨
     (w.toNat / 4096 = 0xE ∧ w.toNat % 256 ∈ [0x9E, 0xA1]) ∨
     (w.toNat / 4096 = 0xF ∧ w.toNat % 256 ∈ [0x07, 0x0A, 0x15, 0x18, 0x1E, 0x29, 0x33, 0x55, 0x65]))

/-- The decoder and the opcode table agree, and no two rows of the table admit one word (30_encoding.md R84). -/
def Obligations.DecoderAgreesWithTheOpcodeTable : Prop :=
  (∀ (w : Word) (i : Instr), decodeWord w = .ok i →
    i.row.admits w = true ∧ ∀ r ∈ opcodeRows, r.admits w = true → r = i.row) ∧
  (∀ (w : Word) (e : DecodeError), decodeWord w = .error e → wordWellFormed w = false)

/-- Words written out from the patterns of 30_encoding.md R77 decode to the instructions they stand for, and words
its rules R78 to R82 call invalid do not. -/
def Obligations.SampleWordsDecodeAsTheSpecWritesThem : Prop :=
  decodeWord 0x00E0 = .ok .cls ∧ decodeWord 0x00EE = .ok .ret ∧ decodeWord 0x1234 = .ok (.jpAddr 0x234) ∧
  decodeWord 0x3342 = .ok (.seImm 0x3 0x42) ∧ decodeWord 0x8127 = .ok (.subn 0x1 0x2) ∧
  decodeWord 0xA2F0 = .ok (.ldI 0x2F0) ∧ decodeWord 0xD015 = .ok (.drw 0x0 0x1 0x5) ∧
  decodeWord 0xE5A1 = .ok (.sknp 0x5) ∧ decodeWord 0xF255 = .ok (.ldMemV 0x2) ∧
  decodeWord 0x01E0 = .error .unmappedSystem ∧ decodeWord 0x5121 = .error .unmappedSkipEqual ∧
  decodeWord 0x8128 = .error .unmappedAlu ∧ decodeWord 0xF100 = .error .unmappedMisc

/-! ### The step -/

/-- One step is the oldest host operation; a STEP whose fetched bytes decode to `i` is `exec i` of the state with
this STEP's inputs latched and PC past the word. Where no operation is pending the model issues a STEP with free
inputs (the model's choice, log entries 1 and 2). -/
def Obligations.StepRunsTheDecodedInstruction : Prop :=
  (∀ (s : State) (op : HostOp) (rest : List HostOp), s.pending = op :: rest →
    step s = hostOp op { s with pending := rest }) ∧
  (∀ s : State, s.pending = [] →
    step s = hostStep (Config.freeKeys s.draws) (Config.freeRandom s.draws) { s with draws := s.draws + 1 }) ∧
  (∀ (s : State) (k : Word) (r : Byte) (i : Instr), s.runState = .running → s.pc.toNat ≤ 0xFFD →
    decodeWord (s.wordAt s.pc.toNat) = .ok i → hostStep k r s = exec i (s.fetched k r))

/-- Nothing stops the model: every step, from every state, answers a next state (log entry 13). -/
def Obligations.EveryStepAnswersANextState : Prop :=
  ∀ s : State, ∃ t, step s = .next t

/-- 30_encoding.md R85: a word outside the patterns raises InvalidOpcode when its step reaches decode. -/
def Obligations.InvalidWordRaisesInvalidOpcode : Prop :=
  ∀ (s : State) (k : Word) (r : Byte) (e : DecodeError), s.runState = .running → s.pc.toNat ≤ 0xFFD →
    decodeWord (s.wordAt s.pc.toNat) = .error e →
    ∃ t, hostStep k r s = .next t ∧
      HaltedWith (s.latched k r) t .invalidOpcode s.pc (s.wordAt s.pc.toNat) 0

/-- 40_fetch_cycle.md R101, R105: a fetch at 0xFFF reads no word, a fetch at 0xFFE reads it and fails on the advance. -/
def Obligations.FetchAtTheTopRaisesAddressOutOfRange : Prop :=
  ∀ (s : State) (k : Word) (r : Byte), s.runState = .running →
    (s.pc.toNat = 0xFFF → ∃ t, hostStep k r s = .next t ∧
      HaltedWith (s.latched k r) t .addressOutOfRange 0xFFF 0 0x1000) ∧
    (s.pc.toNat = 0xFFE → ∃ t, hostStep k r s = .next t ∧
      HaltedWith (s.latched k r) t .addressOutOfRange 0xFFE (s.wordAt 0xFFE) 0x1000)

/-- 60_exceptions.md R242 and R248, 40_fetch_cycle.md R105: whatever error a STEP raises, all it leaves is the
record, HALTED and the latched inputs; PC is the failing instruction's address. -/
def Obligations.EveryErrorIsPrecise : Prop :=
  ∀ (s t : State) (k : Word) (r : Byte), s.runState = .running → hostStep k r s = .next t →
    t.runState = .halted →
    t.keys = k ∧ t.err.code ≠ .none ∧ t.err.pc = s.pc ∧
    (s.pc.toNat ≤ 0xFFE → t.err.opcode = s.wordAt s.pc.toNat) ∧
    (0xFFE < s.pc.toNat → t.err.opcode = 0) ∧
    (t.err.code ≠ .addressOutOfRange → t.err.addr = 0) ∧
    UnchangedBut {.keys, .rnd, .runState, .err} s t

/-- 60_exceptions.md R250: a STEP in HALTED only latches KEYS, and only RESET leaves HALTED or changes the record. -/
def Obligations.HaltedIsLeftOnlyByReset : Prop :=
  (∀ (s : State) (k : Word) (r : Byte), s.runState = .halted →
    ∃ t, hostStep k r s = .next t ∧ t.keys = k ∧ UnchangedBut {.keys, .rnd} s t) ∧
  (∀ s t : State, s.runState = .halted → step s = .next t →
    (t.runState = .halted ∧ t.err = s.err) ∨ ∃ cfg rest, s.pending = .reset cfg :: rest)

/-- 40_fetch_cycle.md R108: the run-state transitions of each host operation. -/
def Obligations.RunStateTransitions : Prop :=
  (∀ (s t : State) (cfg : BitVec 4), hostOp (.reset cfg) s = .next t → t.runState = .running) ∧
  (∀ (s t : State) (rom : List Byte), hostOp (.load rom) s = .next t → t.runState = s.runState) ∧
  (∀ s t : State, hostOp .tick s = .next t → t.runState = s.runState) ∧
  (∀ (s t : State) (k : Word) (r : Byte), hostOp (.step k r) s = .next t →
    (s.runState = .halted → t.runState = .halted) ∧
    (s.runState = .awaitingKey →
      t.runState = if k &&& ~~~s.keys = 0 then .awaitingKey else .running) ∧
    (s.runState = .running →
      (t.runState = .awaitingKey ↔
        s.pc.toNat ≤ 0xFFD ∧ ∃ x, decodeWord (s.wordAt s.pc.toNat) = .ok (.ldVK x)) ∧
      (t.runState = .halted → t.err.code ≠ .none) ∧
      (t.runState = .running → t.err = s.err)))

/-- 46_input.md R229: KeyResume waits without an edge, and with one stores the lowest edge's index and runs again. -/
def Obligations.KeyResumeTakesTheLowestNewKey : Prop :=
  ∀ (s : State) (k : Word) (r : Byte), s.runState = .awaitingKey →
    (k &&& ~~~s.keys = 0 →
      ∃ t, hostStep k r s = .next t ∧ t.keys = k ∧ UnchangedBut {.keys, .rnd} s t) ∧
    (∀ j : Nat, j < 16 → (k.getLsbD j = true ∧ s.keys.getLsbD j = false) →
      (∀ l, l < j → ¬(k.getLsbD l = true ∧ s.keys.getLsbD l = false)) →
      ∃ t, hostStep k r s = .next t ∧ t.keys = k ∧ (t.reg s.waitX).toNat = j ∧ t.runState = .running ∧
        UnchangedBut {.keys, .rnd, .reg s.waitX, .runState} s t)

/-- 40_fetch_cycle.md R110: a jump to its own address re-executes itself and changes no state but the inputs. -/
def Obligations.SelfJumpLoopsForEver : Prop :=
  ∀ (s : State) (k : Word) (r : Byte) (nnn : Addr), s.runState = .running → s.pc.toNat ≤ 0xFFD →
    decodeWord (s.wordAt s.pc.toNat) = .ok (.jpAddr nnn) → nnn.toNat = s.pc.toNat →
    ∃ t, hostStep k r s = .next t ∧ UnchangedBut {.keys, .rnd} s t

/-! ### Whole-machine rules -/

/-- 10_state.md R22 to R26, R33, R35, R41: every step, from every state of the invariant, keeps it. -/
def Obligations.EveryStepKeepsTheInvariant : Prop :=
  ∀ s t : State, s.Inv → step s = .next t → t.Inv

/-- The invariant holds after RESET, for every FONT and configuration. -/
def Obligations.ResetSatisfiesTheInvariant : Prop :=
  State.reset.Inv ∧ ∀ (font : Font) (cfg : BitVec 4), (State.resetWith font cfg).Inv

/-- Every instruction either raises its error or changes nothing outside the parts the spec lets it write. -/
def Obligations.NoInstructionWritesOutsideItsFootprint : Prop :=
  ∀ (i : Instr) (s t : State), s.runState = .running → exec i s = .next t →
    UnchangedBut {.runState, .err, .pc} s t ∧ t.runState = .halted ∨ UnchangedBut (footprint s i) s t

/-- 10_state.md R21: no instruction outside the listed ones writes VF. -/
def Obligations.VfIsWrittenOnlyByTheListedInstructions : Prop :=
  ∀ (i : Instr) (s t : State), exec i s = .next t → ¬WritesVf i → t.reg vf = s.reg vf

/-- 10_state.md R36: CONFIG changes only at RESET, to its configuration input; FONT never changes (log entry 4). -/
def Obligations.ConfigChangesOnlyAtReset : Prop :=
  ∀ s t : State, step s = .next t → t.font = s.font ∧
    (t.config = s.config ∨ ∃ cfg rest, s.pending = .reset cfg :: rest ∧ t.config = cfg)

/-- 10_state.md R30: the display is changed only by 00E0, by Dxyn and by RESET. -/
def Obligations.DisplayChangesOnlyByClearDrawAndReset : Prop :=
  (∀ (i : Instr) (s t : State), exec i s = .next t → i ≠ .cls → (∀ x y n, i ≠ .drw x y n) →
    t.display = s.display) ∧
  (∀ (op : HostOp) (s t : State), hostOp op s = .next t → (∀ cfg, op ≠ .reset cfg) →
    (∀ k r, op = .step k r → s.runState ≠ .running) → t.display = s.display)

/-! ### Host operations -/

/-- 70_reset_and_hazards.md R270: RESET(cfg) leaves every part of the state at the stated value, whatever it was. -/
def Obligations.ResetInitialisesTheWholeState : Prop :=
  ∀ (s : State) (cfg : BitVec 4) (rest : List HostOp), s.pending = .reset cfg :: rest →
    ∃ t, step s = .next t ∧ t.IsReset s.font cfg ∧ t.pending = rest

/-- State.reset is the state RESET leaves; its configuration and FONT are the model's choice (log entries 4 and 5). -/
def Obligations.ResetStateHasTheResetValues : Prop :=
  State.reset.IsReset Font.default Config.resetConfig ∧ State.reset.font = Font.default

/-- 70_reset_and_hazards.md R275: what a program may assume at its first instruction, after RESET and LOAD. -/
def Obligations.BootSequenceStartsTheProgram : Prop :=
  ∀ (s : State) (cfg : BitVec 4) (rom : List Byte) (rest : List HostOp),
    s.pending = .reset cfg :: .load rom :: rest → 0x200 + rom.length ≤ 0x1000 →
    ∃ t u, step s = .next t ∧ step t = .next u ∧ u.loadStatus = .success ∧ u.runState = .running ∧
      u.pending = rest ∧ u.pc = 0x200 ∧ u.sp.val = 0 ∧ u.i = 0 ∧ u.dt = 0 ∧ u.st = 0 ∧ (∀ x, u.reg x = 0) ∧
      (∀ x y, u.display.pixel x y = false) ∧
      (∀ (a : Nat) (h : a < Config.fontSize), u.readByte a = s.font[a]) ∧
      (∀ a, Config.fontSize ≤ a → a < 0x200 → u.readByte a = 0) ∧
      ∀ (k : Nat) (h : k < rom.length), u.readByte (0x200 + k) = rom[k]

/-- 70_reset_and_hazards.md R271: a STEP after RESET and before any LOAD halts on the font word F090 (with the default
FONT, log entry 4; the STEP's inputs are free values, log entry 2). -/
def Obligations.StepBeforeAnyLoadHaltsOnTheFont : Prop :=
  ∃ t, step State.reset = .next t ∧ t.runState = .halted ∧ t.err = ⟨.invalidOpcode, 0x000, 0xF090, 0⟩

/-- 70_reset_and_hazards.md R274: LOAD copies the image to 0x200 and sets PC, or refuses one that does not fit. -/
def Obligations.LoadCopiesTheImageOrRefusesIt : Prop :=
  ∀ (s : State) (rom : List Byte) (rest : List HostOp), s.pending = .load rom :: rest →
    (0x200 + rom.length > 0x1000 → ∃ t, step s = .next t ∧ t.loadStatus = .romTooLarge ∧ t.pending = rest ∧
      UnchangedBut {.loadStatus, .pending} s t) ∧
    (0x200 + rom.length ≤ 0x1000 → ∃ t, step s = .next t ∧ t.loadStatus = .success ∧ t.pending = rest ∧
      t.pc = 0x200 ∧ (∀ (k : Nat) (h : k < rom.length), t.readByte (0x200 + k) = rom[k]) ∧
      UnchangedBut (byteParts 0x200 rom.length ∪ {.pc, .loadStatus, .pending}) s t)

/-- 45_timers.md R213: TICK takes each timer down by one and never below 0, in every run state. -/
def Obligations.TickCountsBothTimersDown : Prop :=
  ∀ (s : State) (rest : List HostOp), s.pending = .tick :: rest →
    ∃ t, step s = .next t ∧ t.dt.toNat = s.dt.toNat - 1 ∧ t.st.toNat = s.st.toNat - 1 ∧ t.pending = rest ∧
      UnchangedBut {.dt, .st, .pending} s t

/-- 44_display.md R195, 45_timers.md R214: the display port's bit y*64 + x is pixel (x, y), and SOUND is ST ≠ 0. -/
def Obligations.OutputPortsShowDisplayAndSound : Prop :=
  ∀ s : State, (∀ x y : Nat, x < 64 → y < 32 → s.displayPort.getLsbD (y * 64 + x) = s.display.pixel x y) ∧
    (s.sound = true ↔ s.st.toNat ≠ 0)

/-! ### Memory -/

/-- 20_memory.md R54, R55: the access primitives and their bounds check. -/
def Obligations.MemoryPrimitivesReadBackAndCheckBounds : Prop :=
  ∀ (s : State) (a : Nat) (b : Byte),
    (a ≤ 0xFFF → s.memRead a = .ok (s.readByte a) ∧ ∃ t, s.memWrite a b = .ok t ∧
      (∀ a', a' ≤ 0xFFF → t.memRead a' = if a' = a then .ok b else s.memRead a') ∧
      UnchangedBut {.byte a} s t) ∧
    (0xFFF < a → s.memWrite a b = .error (.addressOutOfRange a) ∧
      s.memRead a = .error (.addressOutOfRange a))

/-- 20_memory.md R63: bytes that Fx55 stores at the next instruction's address are what the very next STEP runs. -/
def Obligations.StoredInstructionIsFetchedNext : Prop :=
  ∀ (s : State) (x : Nibble) (k : Word) (r : Byte) (i : Instr), s.runState = .running → s.pc.toNat ≤ 0xFFD →
    s.i = s.pc → 1 ≤ x.toNat → s.i.toNat + x.toNat ≤ 0xFFF →
    decodeWord (bytesToWord (s.reg 0) (s.reg 1)) = .ok i →
    ∃ t, exec (.ldMemV x) s = .next t ∧ hostStep k r t = exec i (t.fetched k r)

/-! ### Control flow -/

/-- 41_control_flow.md R120: RET. A return address is a PC value wherever the invariant holds. -/
def Obligations.ReturnPopsIntoPc : Prop :=
  ∀ s : State,
    (∀ j : Fin 16, j.val + 1 = s.sp.val → s.stack[j].toNat ≤ 0xFFF →
      ∃ t, exec .ret s = .next t ∧ t.pc = s.stack[j] ∧ t.sp.val = j.val ∧ UnchangedBut {.pc, .sp} s t) ∧
    (s.sp.val = 0 → ∃ t, exec .ret s = .next t ∧
      HaltedWith s t .stackUnderflow (s.pc - 2) 0x00EE 0)

/-- 41_control_flow.md R121: 1nnn. -/
def Obligations.JumpSetsPc : Prop :=
  ∀ (s : State) (nnn : Addr),
    ∃ t, exec (.jpAddr nnn) s = .next t ∧ t.pc.toNat = nnn.toNat ∧ UnchangedBut {.pc} s t

/-- 41_control_flow.md R122: 2nnn. -/
def Obligations.CallPushesTheReturnAddress : Prop :=
  ∀ (s : State) (nnn : Addr),
    (∀ j : Fin 16, s.sp.val = j.val →
      ∃ t, exec (.call nnn) s = .next t ∧ t.stack[j] = s.pc ∧ t.sp.val = j.val + 1 ∧
        t.pc.toNat = nnn.toNat ∧ UnchangedBut {.pc, .sp, .slot j} s t) ∧
    (s.sp.val = 16 → ∃ t, exec (.call nnn) s = .next t ∧
      HaltedWith s t .stackOverflow (s.pc - 2) (encode (.call nnn)) 0)

/-- 41_control_flow.md R123: 2nnn then 00EE comes back after the call; 16 nested calls succeed, a 17th overflows. -/
def Obligations.CallAndReturnLaw : Prop :=
  (∀ (s : State) (nnn : Addr), s.sp.val < 16 → s.pc.toNat ≤ 0xFFD →
    ∃ t, execSeq [.call nnn, .ret] s = .next t ∧ t.pc = s.pc + 2 ∧ t.sp = s.sp) ∧
  (∀ (s : State) (targets : List Addr), s.sp.val = 0 → targets.length = 16 →
    ∃ t, execSeq (targets.map .call) s = .next t ∧ t.sp.val = 16 ∧ t.runState = s.runState ∧
      ∀ nnn, ∃ u, execSeq [.call nnn] t = .next u ∧ u.runState = .halted ∧ u.err.code = .stackOverflow)

/-- 41_control_flow.md R125 to R128: the four register skips. -/
def Obligations.RegisterSkipsCompareAsTheirPatternsSay : Prop :=
  ∀ (s : State) (x y : Nibble) (kk : Byte),
    SkipsWhen (.seImm x kk) s (s.reg x = kk) ∧
    SkipsWhen (.sneImm x kk) s (s.reg x ≠ kk) ∧
    SkipsWhen (.seReg x y) s (s.reg x = s.reg y) ∧
    SkipsWhen (.sneReg x y) s (s.reg x ≠ s.reg y)

/-- 10_state.md R24 read for a skip taken by an instruction at 0xFFD, for all six skips: the error records 0x1001 (the
model's reading, log entry 8). -/
def Obligations.SkipTakenAtTheOddTopRaises : Prop :=
  ∀ (s : State) (x y : Nibble) (kk : Byte),
    (s.reg x = kk → SkipLeavesTheTop (.seImm x kk) s) ∧ (s.reg x ≠ kk → SkipLeavesTheTop (.sneImm x kk) s) ∧
    (s.reg x = s.reg y → SkipLeavesTheTop (.seReg x y) s) ∧ (s.reg x ≠ s.reg y → SkipLeavesTheTop (.sneReg x y) s) ∧
    ((s.reg x).toNat ≤ 0x0F →
      (s.keys.getLsbD (s.reg x).toNat = true → SkipLeavesTheTop (.skp x) s) ∧
      (s.keys.getLsbD (s.reg x).toNat = false → SkipLeavesTheTop (.sknp x) s))

/-- 41_control_flow.md R129: Bnnn adds V0, does not wrap, and raises past 0xFFF. -/
def Obligations.ComputedJumpAddsV0 : Prop :=
  ∀ (s : State) (nnn : Addr),
    (nnn.toNat + (s.reg 0).toNat ≤ 0xFFF → ∃ t, exec (.jpV0 nnn) s = .next t ∧
      t.pc.toNat = nnn.toNat + (s.reg 0).toNat ∧ UnchangedBut {.pc} s t) ∧
    (0xFFF < nnn.toNat + (s.reg 0).toNat → ∃ t, exec (.jpV0 nnn) s = .next t ∧
      HaltedWith s t .addressOutOfRange (s.pc - 2) (encode (.jpV0 nnn))
        (BitVec.ofNat 16 (nnn.toNat + (s.reg 0).toNat)))

/-! ### Loads and ALU -/

/-- 42_alu.md R141, R143: the register loads. -/
def Obligations.RegisterLoadsCopyTheirSource : Prop :=
  ∀ (s : State) (x y : Nibble) (kk : Byte),
    WritesReg (.ldImm x kk) s x kk ∧ WritesReg (.ldReg x y) s x (s.reg y)

/-- 42_alu.md R142: 7xkk wraps modulo 256 and writes no flag. -/
def Obligations.AddImmediateWrapsWithoutFlag : Prop :=
  ∀ (s : State) (x : Nibble) (kk : Byte),
    ∃ b : Byte, b.toNat = ((s.reg x).toNat + kk.toNat) % 256 ∧ WritesReg (.addImm x kk) s x b

/-- 42_alu.md R144 to R146: OR, AND and XOR bit by bit, VF unwritten unless x = 0xF. -/
def Obligations.BitwiseOperationsWriteVxAlone : Prop :=
  ∀ (s : State) (x y : Nibble), ∃ o a e : Byte,
    WritesReg (.orReg x y) s x o ∧ WritesReg (.andReg x y) s x a ∧ WritesReg (.xorReg x y) s x e ∧
    ∀ n : Nat, n < 8 →
      o.getLsbD n = ((s.reg x).getLsbD n || (s.reg y).getLsbD n) ∧
      a.getLsbD n = ((s.reg x).getLsbD n && (s.reg y).getLsbD n) ∧
      e.getLsbD n = ((s.reg x).getLsbD n != (s.reg y).getLsbD n)

/-- 42_alu.md R151: 8xy4, in both flag orders. -/
def Obligations.AddSetsCarry : Prop :=
  ∀ (s : State) (x y : Nibble),
    FlagOperation (.addReg x y) s x y (fun a b => (a + b) % 256) (fun a b => a + b > 0xFF)

/-- 42_alu.md R149, R153: 8xy5, in both polarities and flag orders. -/
def Obligations.SubtractSetsTheBorrowFlag : Prop :=
  ∀ (s : State) (x y : Nibble),
    FlagOperation (.sub x y) s x y (fun a b => (a + 256 - b) % 256)
      (fun a b => if s.config.getLsbD 1 then a < b else a ≥ b)

/-- 42_alu.md R155: 8xy7, the reverse subtract. -/
def Obligations.ReverseSubtractSetsTheBorrowFlag : Prop :=
  ∀ (s : State) (x y : Nibble),
    FlagOperation (.subn x y) s x y (fun a b => (b + 256 - a) % 256)
      (fun a b => if s.config.getLsbD 1 then b < a else b ≥ a)

/-- 42_alu.md R150, R157: 8xy6, from the source CONFIG selects. -/
def Obligations.ShiftRightSetsTheBitShiftedOut : Prop :=
  ∀ (s : State) (x y : Nibble),
    FlagOperation (.shr x y) s x y (fun a b => (if s.config.getLsbD 0 then b else a) / 2)
      (fun a b => (if s.config.getLsbD 0 then b else a) % 2 = 1)

/-- 42_alu.md R150, R158: 8xyE, from the source CONFIG selects. -/
def Obligations.ShiftLeftSetsTheBitShiftedOut : Prop :=
  ∀ (s : State) (x y : Nibble),
    FlagOperation (.shl x y) s x y (fun a b => (if s.config.getLsbD 0 then b else a) * 2 % 256)
      (fun a b => (if s.config.getLsbD 0 then b else a) ≥ 128)

/-- 42_alu.md R148: the two flag orders give the same state whenever x ≠ 0xF and y ≠ 0xF. -/
def Obligations.FlagOrdersAgreeAwayFromVf : Prop :=
  ∀ (s t u : State) (x y : Nibble) (i : Instr), x ≠ vf → y ≠ vf →
    i ∈ [Instr.addReg x y, .sub x y, .shr x y, .subn x y, .shl x y] →
    exec i { s with config := s.config ||| 0b0100 } = .next t →
    exec i { s with config := s.config &&& 0b1011 } = .next u →
    { t with config := s.config } = { u with config := s.config }

/-- 42_alu.md R159: Cxkk masks the random byte, and that byte is the one its own STEP carries. -/
def Obligations.RandomMasksTheByteOfItsStep : Prop :=
  ∀ (s : State) (x : Nibble) (kk : Byte),
    WritesReg (.rnd x kk) s x (s.rnd &&& kk) ∧
    ∀ (k : Word) (r : Byte), s.runState = .running → s.pc.toNat ≤ 0xFFD →
      decodeWord (s.wordAt s.pc.toNat) = .ok (.rnd x kk) →
      ∃ t, hostStep k r s = .next t ∧ t.reg x = r &&& kk ∧ t.pc = s.pc + 2 ∧
        UnchangedBut {.keys, .rnd, .reg x, .pc} s t

/-! ### The index register and memory transfers -/

/-- 43_index_memory.md R170, R172: Annn and Fx29. -/
def Obligations.IndexLoadsSetI : Prop :=
  ∀ (s : State) (nnn : Addr) (x : Nibble),
    (∃ t, exec (.ldI nnn) s = .next t ∧ t.i.toNat = nnn.toNat ∧ UnchangedBut {.i} s t) ∧
    (∃ t, exec (.ldF x) s = .next t ∧ t.i.toNat = 5 * (s.reg x).toNat ∧ UnchangedBut {.i} s t)

/-- 43_index_memory.md R171: Fx1E is exact, raises past 0xFFF and writes no flag. -/
def Obligations.AddToIndexIsRangeChecked : Prop :=
  ∀ (s : State) (x : Nibble), s.i.toNat ≤ 0xFFF →
    (s.i.toNat + (s.reg x).toNat ≤ 0xFFF → ∃ t, exec (.addI x) s = .next t ∧
      t.i.toNat = s.i.toNat + (s.reg x).toNat ∧ UnchangedBut {.i} s t) ∧
    (0xFFF < s.i.toNat + (s.reg x).toNat → ∃ t, exec (.addI x) s = .next t ∧
      HaltedWith s t .addressOutOfRange (s.pc - 2) (encode (.addI x))
        (BitVec.ofNat 16 (s.i.toNat + (s.reg x).toNat)))

/-- 43_index_memory.md R173: Fx33 stores the three decimal digits, or nothing where they do not fit. -/
def Obligations.DecimalDigitsAreStoredAtI : Prop :=
  ∀ (s : State) (x : Nibble), s.i.toNat ≤ 0xFFF →
    (s.i.toNat + 2 ≤ 0xFFF → ∃ t, exec (.ldB x) s = .next t ∧
      (t.readByte s.i.toNat).toNat = (s.reg x).toNat / 100 ∧
      (t.readByte (s.i.toNat + 1)).toNat = (s.reg x).toNat / 10 % 10 ∧
      (t.readByte (s.i.toNat + 2)).toNat = (s.reg x).toNat % 10 ∧
      UnchangedBut (byteParts s.i.toNat 3) s t) ∧
    (0xFFF < s.i.toNat + 2 → ∃ t, exec (.ldB x) s = .next t ∧
      HaltedWith s t .addressOutOfRange (s.pc - 2) (encode (.ldB x)) 0x1000)

/-- 43_index_memory.md R174: Fx55 stores V0..Vx at I..I+x and leaves I, or stores nothing. -/
def Obligations.BlockStoreWritesV0ToVx : Prop :=
  ∀ (s : State) (x : Nibble), s.i.toNat ≤ 0xFFF →
    (s.i.toNat + x.toNat ≤ 0xFFF → ∃ t, exec (.ldMemV x) s = .next t ∧
      (∀ j : Nibble, j.toNat ≤ x.toNat → t.readByte (s.i.toNat + j.toNat) = s.reg j) ∧
      UnchangedBut (byteParts s.i.toNat (x.toNat + 1)) s t) ∧
    (0xFFF < s.i.toNat + x.toNat → ∃ t, exec (.ldMemV x) s = .next t ∧
      HaltedWith s t .addressOutOfRange (s.pc - 2) (encode (.ldMemV x)) 0x1000)

/-- 43_index_memory.md R175: Fx65 loads V0..Vx from I..I+x and leaves I and the registers above Vx, or loads nothing. -/
def Obligations.BlockLoadReadsV0ToVx : Prop :=
  ∀ (s : State) (x : Nibble), s.i.toNat ≤ 0xFFF →
    (s.i.toNat + x.toNat ≤ 0xFFF → ∃ t, exec (.ldVMem x) s = .next t ∧
      (∀ j : Nibble, j.toNat ≤ x.toNat → t.reg j = s.readByte (s.i.toNat + j.toNat)) ∧
      UnchangedBut (regParts x) s t) ∧
    (0xFFF < s.i.toNat + x.toNat → ∃ t, exec (.ldVMem x) s = .next t ∧
      HaltedWith s t .addressOutOfRange (s.pc - 2) (encode (.ldVMem x)) 0x1000)

/-- 43_index_memory.md R176: Fx55 then Fx65, whatever the registers hold in between, restores V0..Vx. -/
def Obligations.BlockStoreThenLoadRestoresTheRegisters : Prop :=
  ∀ (s u : State) (x : Nibble), s.i.toNat + x.toNat ≤ 0xFFF →
    ∃ t, exec (.ldMemV x) s = .next t ∧
      (u.i = t.i → (∀ a, u.readByte a = t.readByte a) →
        ∃ w, exec (.ldVMem x) u = .next w ∧ (∀ j : Nibble, j.toNat ≤ x.toNat → w.reg j = s.reg j) ∧
          ∀ j : Nibble, x.toNat < j.toNat → w.reg j = u.reg j)

/-! ### Display -/

/-- 44_display.md R190: 00E0 clears every pixel. -/
def Obligations.ClearBlanksTheDisplay : Prop :=
  ∀ s : State, ∃ t, exec .cls s = .next t ∧ (∀ x y, t.display.pixel x y = false) ∧
    UnchangedBut pixelParts s t

/-- 44_display.md R191, R192: Dxyn toggles exactly the pixels the sprite draws under the selected edge mode, and VF
is 1 iff one of them went from set to unset; it draws nothing where its rows do not fit in memory. -/
def Obligations.DrawTogglesExactlyTheSpritePixels : Prop :=
  ∀ (s : State) (x y n : Nibble), s.i.toNat ≤ 0xFFF →
    (n.toNat = 0 ∨ s.i.toNat + n.toNat - 1 ≤ 0xFFF → ∃ t, exec (.drw x y n) s = .next t ∧
      (∀ px py, px < 64 → py < 32 →
        (s.SpriteDraws x y n px py → t.display.pixel px py = !s.display.pixel px py) ∧
        (¬s.SpriteDraws x y n px py → t.display.pixel px py = s.display.pixel px py)) ∧
      ((∃ px py, px < 64 ∧ py < 32 ∧ s.display.pixel px py = true ∧ t.display.pixel px py = false) →
        t.reg vf = 1) ∧
      ((¬∃ px py, px < 64 ∧ py < 32 ∧ s.display.pixel px py = true ∧ t.display.pixel px py = false) →
        t.reg vf = 0) ∧
      UnchangedBut (pixelParts ∪ {.reg vf}) s t) ∧
    (1 ≤ n.toNat → 0xFFF < s.i.toNat + n.toNat - 1 → ∃ t, exec (.drw x y n) s = .next t ∧
      HaltedWith s t .addressOutOfRange (s.pc - 2) (encode (.drw x y n)) 0x1000)

/-- 44_display.md R194: the second of two equal draws restores the display, and reports a collision iff some pixel
the sprite draws was 0 before the first; a sprite that draws no pixel reports none. -/
def Obligations.DrawingTwiceRestoresTheDisplay : Prop :=
  ∀ (s : State) (x y n : Nibble), x ≠ vf → y ≠ vf → s.i.toNat ≤ 0xFFF →
    (n.toNat = 0 ∨ s.i.toNat + n.toNat - 1 ≤ 0xFFF) →
    ∃ t u, exec (.drw x y n) s = .next t ∧ exec (.drw x y n) t = .next u ∧
      (∀ px py, px < 64 → py < 32 → u.display.pixel px py = s.display.pixel px py) ∧
      (u.reg vf = 1 ↔
        ∃ px py, px < 64 ∧ py < 32 ∧ s.SpriteDraws x y n px py ∧ s.display.pixel px py = false) ∧
      ((¬∃ px py, px < 64 ∧ py < 32 ∧ s.SpriteDraws x y n px py) → t.reg vf = 0 ∧ u.reg vf = 0)

/-! ### Timers and keys -/

/-- 45_timers.md R210 to R212: Fx07, Fx15, Fx18. -/
def Obligations.TimerInstructionsMoveTheirRegister : Prop :=
  ∀ (s : State) (x : Nibble),
    WritesReg (.ldVDt x) s x s.dt ∧
    (∃ t, exec (.ldDtV x) s = .next t ∧ t.dt = s.reg x ∧ UnchangedBut {.dt} s t) ∧
    (∃ t, exec (.ldStV x) s = .next t ∧ t.st = s.reg x ∧ (t.sound = true ↔ (s.reg x).toNat ≠ 0) ∧
      UnchangedBut {.st} s t)

/-- 46_input.md R225 to R227: Ex9E and ExA1 test the key V[x] names, in the vector of their own STEP, and raise where
V[x] names none. -/
def Obligations.KeySkipsTestTheNamedKey : Prop :=
  ∀ (s : State) (x : Nibble),
    ((s.reg x).toNat ≤ 0x0F →
      SkipsWhen (.skp x) s (s.keys.getLsbD (s.reg x).toNat = true) ∧
      SkipsWhen (.sknp x) s (s.keys.getLsbD (s.reg x).toNat = false)) ∧
    (0x0F < (s.reg x).toNat →
      (∃ t, exec (.skp x) s = .next t ∧
        HaltedWith s t .addressOutOfRange (s.pc - 2) (encode (.skp x)) ((s.reg x).zeroExtend 16)) ∧
      (∃ t, exec (.sknp x) s = .next t ∧
        HaltedWith s t .addressOutOfRange (s.pc - 2) (encode (.sknp x)) ((s.reg x).zeroExtend 16))) ∧
    ∀ (k : Word) (r : Byte), s.runState = .running → s.pc.toNat ≤ 0xFFB → (s.reg x).toNat ≤ 0x0F →
      (decodeWord (s.wordAt s.pc.toNat) = .ok (.skp x) → ∃ t, hostStep k r s = .next t ∧
        t.pc = s.pc + (if k.getLsbD (s.reg x).toNat then 4 else 2)) ∧
      (decodeWord (s.wordAt s.pc.toNat) = .ok (.sknp x) → ∃ t, hostStep k r s = .next t ∧
        t.pc = s.pc + (if k.getLsbD (s.reg x).toNat then 2 else 4))

/-- 46_input.md R228: Fx0A records its register and waits. -/
def Obligations.KeyWaitSuspendsTheCore : Prop :=
  ∀ (s : State) (x : Nibble), ∃ t, exec (.ldVK x) s = .next t ∧ t.waitX = x ∧
    t.runState = .awaitingKey ∧ UnchangedBut {.waitX, .runState} s t
end

