-- ==== Sys2Proof/Laws/State.lean ====
section
/-! SUPPORT. The small lemmas of the state's named updates: what each reads back, and that it leaves every other
field alone. -/

namespace Sys2Proof.Machine

/-! ### setReg -/

@[simp] theorem State.setReg_i (s : State) (x : Nibble) (b : Byte) : (s.setReg x b).i = s.i := rfl
@[simp] theorem State.setReg_pc (s : State) (x : Nibble) (b : Byte) : (s.setReg x b).pc = s.pc := rfl
@[simp] theorem State.setReg_sp (s : State) (x : Nibble) (b : Byte) : (s.setReg x b).sp = s.sp := rfl
@[simp] theorem State.setReg_stack (s : State) (x : Nibble) (b : Byte) : (s.setReg x b).stack = s.stack := rfl
@[simp] theorem State.setReg_dt (s : State) (x : Nibble) (b : Byte) : (s.setReg x b).dt = s.dt := rfl
@[simp] theorem State.setReg_st (s : State) (x : Nibble) (b : Byte) : (s.setReg x b).st = s.st := rfl
@[simp] theorem State.setReg_display (s : State) (x : Nibble) (b : Byte) : (s.setReg x b).display = s.display := rfl
@[simp] theorem State.setReg_mem (s : State) (x : Nibble) (b : Byte) : (s.setReg x b).mem = s.mem := rfl
@[simp] theorem State.setReg_keys (s : State) (x : Nibble) (b : Byte) : (s.setReg x b).keys = s.keys := rfl
@[simp] theorem State.setReg_runState (s : State) (x : Nibble) (b : Byte) : (s.setReg x b).runState = s.runState := rfl
@[simp] theorem State.setReg_waitX (s : State) (x : Nibble) (b : Byte) : (s.setReg x b).waitX = s.waitX := rfl
@[simp] theorem State.setReg_err (s : State) (x : Nibble) (b : Byte) : (s.setReg x b).err = s.err := rfl
@[simp] theorem State.setReg_config (s : State) (x : Nibble) (b : Byte) : (s.setReg x b).config = s.config := rfl
@[simp] theorem State.setReg_loadStatus (s : State) (x : Nibble) (b : Byte) : (s.setReg x b).loadStatus = s.loadStatus := rfl
@[simp] theorem State.setReg_font (s : State) (x : Nibble) (b : Byte) : (s.setReg x b).font = s.font := rfl
@[simp] theorem State.setReg_rnd (s : State) (x : Nibble) (b : Byte) : (s.setReg x b).rnd = s.rnd := rfl
@[simp] theorem State.setReg_pending (s : State) (x : Nibble) (b : Byte) : (s.setReg x b).pending = s.pending := rfl
@[simp] theorem State.setReg_draws (s : State) (x : Nibble) (b : Byte) : (s.setReg x b).draws = s.draws := rfl

/-! ### writeBytes -/

@[simp] theorem State.writeBytes_v (s : State) (a : Nat) (bs : List Byte) : (s.writeBytes a bs).v = s.v := rfl
@[simp] theorem State.writeBytes_i (s : State) (a : Nat) (bs : List Byte) : (s.writeBytes a bs).i = s.i := rfl
@[simp] theorem State.writeBytes_pc (s : State) (a : Nat) (bs : List Byte) : (s.writeBytes a bs).pc = s.pc := rfl
@[simp] theorem State.writeBytes_sp (s : State) (a : Nat) (bs : List Byte) : (s.writeBytes a bs).sp = s.sp := rfl
@[simp] theorem State.writeBytes_stack (s : State) (a : Nat) (bs : List Byte) : (s.writeBytes a bs).stack = s.stack := rfl
@[simp] theorem State.writeBytes_dt (s : State) (a : Nat) (bs : List Byte) : (s.writeBytes a bs).dt = s.dt := rfl
@[simp] theorem State.writeBytes_st (s : State) (a : Nat) (bs : List Byte) : (s.writeBytes a bs).st = s.st := rfl
@[simp] theorem State.writeBytes_display (s : State) (a : Nat) (bs : List Byte) : (s.writeBytes a bs).display = s.display := rfl
@[simp] theorem State.writeBytes_keys (s : State) (a : Nat) (bs : List Byte) : (s.writeBytes a bs).keys = s.keys := rfl
@[simp] theorem State.writeBytes_runState (s : State) (a : Nat) (bs : List Byte) : (s.writeBytes a bs).runState = s.runState := rfl
@[simp] theorem State.writeBytes_waitX (s : State) (a : Nat) (bs : List Byte) : (s.writeBytes a bs).waitX = s.waitX := rfl
@[simp] theorem State.writeBytes_err (s : State) (a : Nat) (bs : List Byte) : (s.writeBytes a bs).err = s.err := rfl
@[simp] theorem State.writeBytes_config (s : State) (a : Nat) (bs : List Byte) : (s.writeBytes a bs).config = s.config := rfl
@[simp] theorem State.writeBytes_loadStatus (s : State) (a : Nat) (bs : List Byte) : (s.writeBytes a bs).loadStatus = s.loadStatus := rfl
@[simp] theorem State.writeBytes_font (s : State) (a : Nat) (bs : List Byte) : (s.writeBytes a bs).font = s.font := rfl
@[simp] theorem State.writeBytes_rnd (s : State) (a : Nat) (bs : List Byte) : (s.writeBytes a bs).rnd = s.rnd := rfl
@[simp] theorem State.writeBytes_pending (s : State) (a : Nat) (bs : List Byte) : (s.writeBytes a bs).pending = s.pending := rfl
@[simp] theorem State.writeBytes_draws (s : State) (a : Nat) (bs : List Byte) : (s.writeBytes a bs).draws = s.draws := rfl

/-! ### onError -/

@[simp] theorem State.onError_v (s : State) (e : Error) (pc0 w : Word) : (s.onError e pc0 w).v = s.v := rfl
@[simp] theorem State.onError_i (s : State) (e : Error) (pc0 w : Word) : (s.onError e pc0 w).i = s.i := rfl
@[simp] theorem State.onError_pc (s : State) (e : Error) (pc0 w : Word) : (s.onError e pc0 w).pc = pc0 := rfl
@[simp] theorem State.onError_sp (s : State) (e : Error) (pc0 w : Word) : (s.onError e pc0 w).sp = s.sp := rfl
@[simp] theorem State.onError_stack (s : State) (e : Error) (pc0 w : Word) : (s.onError e pc0 w).stack = s.stack := rfl
@[simp] theorem State.onError_dt (s : State) (e : Error) (pc0 w : Word) : (s.onError e pc0 w).dt = s.dt := rfl
@[simp] theorem State.onError_st (s : State) (e : Error) (pc0 w : Word) : (s.onError e pc0 w).st = s.st := rfl
@[simp] theorem State.onError_display (s : State) (e : Error) (pc0 w : Word) : (s.onError e pc0 w).display = s.display := rfl
@[simp] theorem State.onError_mem (s : State) (e : Error) (pc0 w : Word) : (s.onError e pc0 w).mem = s.mem := rfl
@[simp] theorem State.onError_keys (s : State) (e : Error) (pc0 w : Word) : (s.onError e pc0 w).keys = s.keys := rfl
@[simp] theorem State.onError_runState (s : State) (e : Error) (pc0 w : Word) : (s.onError e pc0 w).runState = .halted := rfl
@[simp] theorem State.onError_waitX (s : State) (e : Error) (pc0 w : Word) : (s.onError e pc0 w).waitX = s.waitX := rfl
@[simp] theorem State.onError_err (s : State) (e : Error) (pc0 w : Word) : (s.onError e pc0 w).err = ⟨e.code, pc0, w, e.addr⟩ := rfl
@[simp] theorem State.onError_config (s : State) (e : Error) (pc0 w : Word) : (s.onError e pc0 w).config = s.config := rfl
@[simp] theorem State.onError_loadStatus (s : State) (e : Error) (pc0 w : Word) : (s.onError e pc0 w).loadStatus = s.loadStatus := rfl
@[simp] theorem State.onError_font (s : State) (e : Error) (pc0 w : Word) : (s.onError e pc0 w).font = s.font := rfl
@[simp] theorem State.onError_rnd (s : State) (e : Error) (pc0 w : Word) : (s.onError e pc0 w).rnd = s.rnd := rfl
@[simp] theorem State.onError_pending (s : State) (e : Error) (pc0 w : Word) : (s.onError e pc0 w).pending = s.pending := rfl
@[simp] theorem State.onError_draws (s : State) (e : Error) (pc0 w : Word) : (s.onError e pc0 w).draws = s.draws := rfl

/-! ### fetched -/

@[simp] theorem State.fetched_v (s : State) (k : Word) (r : Byte) : (s.fetched k r).v = s.v := rfl
@[simp] theorem State.fetched_i (s : State) (k : Word) (r : Byte) : (s.fetched k r).i = s.i := rfl
@[simp] theorem State.fetched_pc (s : State) (k : Word) (r : Byte) : (s.fetched k r).pc = s.pc + 2 := rfl
@[simp] theorem State.fetched_sp (s : State) (k : Word) (r : Byte) : (s.fetched k r).sp = s.sp := rfl
@[simp] theorem State.fetched_stack (s : State) (k : Word) (r : Byte) : (s.fetched k r).stack = s.stack := rfl
@[simp] theorem State.fetched_dt (s : State) (k : Word) (r : Byte) : (s.fetched k r).dt = s.dt := rfl
@[simp] theorem State.fetched_st (s : State) (k : Word) (r : Byte) : (s.fetched k r).st = s.st := rfl
@[simp] theorem State.fetched_display (s : State) (k : Word) (r : Byte) : (s.fetched k r).display = s.display := rfl
@[simp] theorem State.fetched_mem (s : State) (k : Word) (r : Byte) : (s.fetched k r).mem = s.mem := rfl
@[simp] theorem State.fetched_keys (s : State) (k : Word) (r : Byte) : (s.fetched k r).keys = k := rfl
@[simp] theorem State.fetched_runState (s : State) (k : Word) (r : Byte) : (s.fetched k r).runState = s.runState := rfl
@[simp] theorem State.fetched_waitX (s : State) (k : Word) (r : Byte) : (s.fetched k r).waitX = s.waitX := rfl
@[simp] theorem State.fetched_err (s : State) (k : Word) (r : Byte) : (s.fetched k r).err = s.err := rfl
@[simp] theorem State.fetched_config (s : State) (k : Word) (r : Byte) : (s.fetched k r).config = s.config := rfl
@[simp] theorem State.fetched_loadStatus (s : State) (k : Word) (r : Byte) : (s.fetched k r).loadStatus = s.loadStatus := rfl
@[simp] theorem State.fetched_font (s : State) (k : Word) (r : Byte) : (s.fetched k r).font = s.font := rfl
@[simp] theorem State.fetched_rnd (s : State) (k : Word) (r : Byte) : (s.fetched k r).rnd = r := rfl
@[simp] theorem State.fetched_pending (s : State) (k : Word) (r : Byte) : (s.fetched k r).pending = s.pending := rfl
@[simp] theorem State.fetched_draws (s : State) (k : Word) (r : Byte) : (s.fetched k r).draws = s.draws := rfl

/-! ### latched -/

@[simp] theorem State.latched_v (s : State) (k : Word) (r : Byte) : (s.latched k r).v = s.v := rfl
@[simp] theorem State.latched_i (s : State) (k : Word) (r : Byte) : (s.latched k r).i = s.i := rfl
@[simp] theorem State.latched_pc (s : State) (k : Word) (r : Byte) : (s.latched k r).pc = s.pc := rfl
@[simp] theorem State.latched_sp (s : State) (k : Word) (r : Byte) : (s.latched k r).sp = s.sp := rfl
@[simp] theorem State.latched_stack (s : State) (k : Word) (r : Byte) : (s.latched k r).stack = s.stack := rfl
@[simp] theorem State.latched_dt (s : State) (k : Word) (r : Byte) : (s.latched k r).dt = s.dt := rfl
@[simp] theorem State.latched_st (s : State) (k : Word) (r : Byte) : (s.latched k r).st = s.st := rfl
@[simp] theorem State.latched_display (s : State) (k : Word) (r : Byte) : (s.latched k r).display = s.display := rfl
@[simp] theorem State.latched_mem (s : State) (k : Word) (r : Byte) : (s.latched k r).mem = s.mem := rfl
@[simp] theorem State.latched_keys (s : State) (k : Word) (r : Byte) : (s.latched k r).keys = k := rfl
@[simp] theorem State.latched_runState (s : State) (k : Word) (r : Byte) : (s.latched k r).runState = s.runState := rfl
@[simp] theorem State.latched_waitX (s : State) (k : Word) (r : Byte) : (s.latched k r).waitX = s.waitX := rfl
@[simp] theorem State.latched_err (s : State) (k : Word) (r : Byte) : (s.latched k r).err = s.err := rfl
@[simp] theorem State.latched_config (s : State) (k : Word) (r : Byte) : (s.latched k r).config = s.config := rfl
@[simp] theorem State.latched_loadStatus (s : State) (k : Word) (r : Byte) : (s.latched k r).loadStatus = s.loadStatus := rfl
@[simp] theorem State.latched_font (s : State) (k : Word) (r : Byte) : (s.latched k r).font = s.font := rfl
@[simp] theorem State.latched_rnd (s : State) (k : Word) (r : Byte) : (s.latched k r).rnd = r := rfl
@[simp] theorem State.latched_pending (s : State) (k : Word) (r : Byte) : (s.latched k r).pending = s.pending := rfl
@[simp] theorem State.latched_draws (s : State) (k : Word) (r : Byte) : (s.latched k r).draws = s.draws := rfl

/-! ### hostTick -/

@[simp] theorem State.hostTick_v (s : State)  : (s.hostTick).v = s.v := rfl
@[simp] theorem State.hostTick_i (s : State)  : (s.hostTick).i = s.i := rfl
@[simp] theorem State.hostTick_pc (s : State)  : (s.hostTick).pc = s.pc := rfl
@[simp] theorem State.hostTick_sp (s : State)  : (s.hostTick).sp = s.sp := rfl
@[simp] theorem State.hostTick_stack (s : State)  : (s.hostTick).stack = s.stack := rfl
@[simp] theorem State.hostTick_dt (s : State)  : (s.hostTick).dt = tickDown s.dt := rfl
@[simp] theorem State.hostTick_st (s : State)  : (s.hostTick).st = tickDown s.st := rfl
@[simp] theorem State.hostTick_display (s : State)  : (s.hostTick).display = s.display := rfl
@[simp] theorem State.hostTick_mem (s : State)  : (s.hostTick).mem = s.mem := rfl
@[simp] theorem State.hostTick_keys (s : State)  : (s.hostTick).keys = s.keys := rfl
@[simp] theorem State.hostTick_runState (s : State)  : (s.hostTick).runState = s.runState := rfl
@[simp] theorem State.hostTick_waitX (s : State)  : (s.hostTick).waitX = s.waitX := rfl
@[simp] theorem State.hostTick_err (s : State)  : (s.hostTick).err = s.err := rfl
@[simp] theorem State.hostTick_config (s : State)  : (s.hostTick).config = s.config := rfl
@[simp] theorem State.hostTick_loadStatus (s : State)  : (s.hostTick).loadStatus = s.loadStatus := rfl
@[simp] theorem State.hostTick_font (s : State)  : (s.hostTick).font = s.font := rfl
@[simp] theorem State.hostTick_rnd (s : State)  : (s.hostTick).rnd = s.rnd := rfl
@[simp] theorem State.hostTick_pending (s : State)  : (s.hostTick).pending = s.pending := rfl
@[simp] theorem State.hostTick_draws (s : State)  : (s.hostTick).draws = s.draws := rfl

/-! ### Registers -/

theorem State.reg_setReg (s : State) (x y : Nibble) (b : Byte) :
    (s.setReg x b).reg y = if y = x then b else s.reg y := by
  simp only [State.reg, State.setReg, Vector.getElem_set, BitVec.toNat_inj]
  by_cases h : x = y <;> simp [h, eq_comm]

@[simp] theorem State.reg_setReg_self (s : State) (x : Nibble) (b : Byte) : (s.setReg x b).reg x = b := by
  simp [State.reg_setReg]

@[simp] theorem State.reg_writeBytes (s : State) (a : Nat) (bs : List Byte) (x : Nibble) :
    (s.writeBytes a bs).reg x = s.reg x := rfl

@[simp] theorem State.reg_onError (s : State) (e : Error) (pc0 w : Word) (x : Nibble) :
    (s.onError e pc0 w).reg x = s.reg x := rfl

@[simp] theorem State.readByte_setReg (s : State) (x : Nibble) (b : Byte) (a : Nat) :
    (s.setReg x b).readByte a = s.readByte a := rfl

@[simp] theorem State.readByte_onError (s : State) (e : Error) (pc0 w : Word) (a : Nat) :
    (s.onError e pc0 w).readByte a = s.readByte a := rfl

@[simp] theorem State.reg_fetched (s : State) (k : Word) (r : Byte) (x : Nibble) :
    (s.fetched k r).reg x = s.reg x := rfl

@[simp] theorem State.readByte_fetched (s : State) (k : Word) (r : Byte) (a : Nat) :
    (s.fetched k r).readByte a = s.readByte a := rfl

@[simp] theorem State.reg_latched (s : State) (k : Word) (r : Byte) (x : Nibble) :
    (s.latched k r).reg x = s.reg x := rfl

@[simp] theorem State.readByte_latched (s : State) (k : Word) (r : Byte) (a : Nat) :
    (s.latched k r).readByte a = s.readByte a := rfl

/-- Writing a register changes that register alone. -/
theorem State.unchangedBut_setReg (s : State) (x : Nibble) (b : Byte) :
    UnchangedBut {.reg x} s (s.setReg x b) := by
  intro p hp
  cases p <;> first | rfl | skip
  rename_i y
  simp only [Set.mem_singleton_iff, Part.reg.injEq] at hp
  simp [Part.Same, State.reg_setReg, hp]

/-! ### Frames -/

theorem UnchangedBut.refl (w : Set Part) (s : State) : UnchangedBut w s s := by
  intro p _
  cases p <;> rfl

/-- A frame may name more parts than were written. -/
theorem UnchangedBut.mono {w w' : Set Part} {s t : State} (h : UnchangedBut w s t) (hw : w ⊆ w') :
    UnchangedBut w' s t := fun p hp => h p fun hin => hp (hw hin)

theorem Part.Same.trans {p : Part} {s t u : State} (h : p.Same s t) (h' : p.Same t u) : p.Same s u := by
  cases p <;> exact Eq.trans h' h

/-- Frames compose. -/
theorem UnchangedBut.trans {w w' : Set Part} {s t u : State} (h : UnchangedBut w s t)
    (h' : UnchangedBut w' t u) : UnchangedBut (w ∪ w') s u := fun p hp =>
  (h p fun hin => hp (.inl hin)).trans (h' p fun hin => hp (.inr hin))

/-- Writing PC changes PC alone. -/
theorem State.unchangedBut_pc (s : State) (v : Word) : UnchangedBut {.pc} s { s with pc := v } := by
  intro p hp
  cases p <;> first | rfl | simp at hp

/-- Writing I changes I alone. -/
theorem State.unchangedBut_i (s : State) (v : Word) : UnchangedBut {.i} s { s with i := v } := by
  intro p hp
  cases p <;> first | rfl | simp at hp

end Sys2Proof.Machine
end

