-- ==== Sys2Proof/Laws/Memory.lean ====
section
/-! SUPPORT. The laws of memory: a read after a write, and that every operation keeps the canonical form. -/

namespace Sys2Proof.Machine

namespace Memory

@[simp] theorem read_nil (font : Font) (a : Nat) : read font [] a = unlisted font a := rfl

theorem read_insert (font : Font) (m : Memory) (a a' : Nat) (b : Byte) (h : ∀ c ∈ m, c.1 ≠ a) :
    read font (insert a b m) a' = if a' = a then b else read font m a' := by
  induction m with
  | nil => simp [insert, read, eq_comm]
  | cons c m ih =>
    obtain ⟨k, d⟩ := c
    have hk : k ≠ a := h (k, d) (by simp)
    have ih := ih fun c hc => h c (by simp [hc])
    simp only [insert]
    split
    · simp [read, eq_comm]
    · simp only [read, ih]
      by_cases h1 : k = a'
      · subst h1; simp [hk]
      · simp [h1]

theorem read_filter_ne (font : Font) (m : Memory) (a a' : Nat) :
    read font (m.filter fun c => c.1 != a) a' = if a' = a then unlisted font a else read font m a' := by
  induction m with
  | nil => simp only [List.filter_nil, read_nil]; split <;> simp_all
  | cons c m ih =>
    obtain ⟨k, d⟩ := c
    by_cases hk : k = a
    · subst hk
      by_cases h : a' = k
      · subst h; simp [ih]
      · simp [read, ih, h, Ne.symm h]
    · simp only [List.filter_cons, bne_iff_ne, ne_eq, hk, not_false_eq_true, if_true, read, ih]
      by_cases h : k = a'
      · subst h; simp [hk]
      · simp [h]

/-- A read after a write: the written address gives the byte, every other address what it gave before. -/
theorem read_write (font : Font) (m : Memory) (a a' : Nat) (b : Byte) :
    read font (write font m a b) a' = if a' = a then b else read font m a' := by
  simp only [write]
  split
  · next h => rw [read_filter_ne]; split <;> simp_all
  · rw [read_insert _ _ _ _ _ (by simp), read_filter_ne]
    split <;> simp_all

/-- A read after a block store: the k-th address of the block gives the k-th byte. -/
theorem read_writeBytes (font : Font) (bs : List Byte) (m : Memory) (a a' : Nat) :
    read font (writeBytes font m a bs) a' =
      if h : a ≤ a' ∧ a' < a + bs.length then bs[a' - a]'(by omega) else read font m a' := by
  induction bs generalizing m a with
  | nil => simp [writeBytes]
  | cons b bs ih =>
    simp only [writeBytes, ih, List.length_cons, read_write]
    by_cases h0 : a' = a
    · subst h0; simp
    · by_cases h1 : a + 1 ≤ a' ∧ a' < a + 1 + bs.length
      · have h2 : a ≤ a' ∧ a' < a + (bs.length + 1) := by omega
        obtain ⟨k, rfl⟩ : ∃ k, a' = a + 1 + k := ⟨a' - (a + 1), by omega⟩
        simp only [h1, h2, and_self, dite_true]
        have e1 : a + 1 + k - a = k + 1 := by omega
        have e2 : a + 1 + k - (a + 1) = k := by omega
        simp [e1, e2]
      · have h2 : ¬(a ≤ a' ∧ a' < a + (bs.length + 1)) := by omega
        rw [dif_neg h1, dif_neg h2, if_neg h0]

/-! ### The canonical form -/

theorem wfFrom_mono (font : Font) {lo lo' : Nat} (m : Memory) (hl : lo' ≤ lo) (h : wfFrom font lo m = true) :
    wfFrom font lo' m = true := by
  cases m with
  | nil => rfl
  | cons c m =>
    obtain ⟨k, b⟩ := c
    simp only [wfFrom, Bool.and_eq_true, decide_eq_true_eq] at h ⊢
    exact ⟨⟨⟨by omega, h.1.1.2⟩, h.1.2⟩, h.2⟩

theorem wfFrom_filter (font : Font) (p : Host.Cell → Bool) (m : Memory) (lo : Nat)
    (h : wfFrom font lo m = true) : wfFrom font lo (m.filter p) = true := by
  induction m generalizing lo with
  | nil => rfl
  | cons c m ih =>
    obtain ⟨k, b⟩ := c
    simp only [wfFrom, Bool.and_eq_true, decide_eq_true_eq] at h
    have ih := ih (k + 1) h.2
    rw [List.filter_cons]
    split
    · simp only [wfFrom, Bool.and_eq_true, decide_eq_true_eq]
      exact ⟨h.1, ih⟩
    · exact wfFrom_mono font _ (by omega) ih

theorem wfFrom_insert (font : Font) (m : Memory) (lo a : Nat) (b : Byte) (hlo : lo ≤ a)
    (ha : a < Config.memSize) (hb : b ≠ unlisted font a) (hne : ∀ c ∈ m, c.1 ≠ a)
    (h : wfFrom font lo m = true) : wfFrom font lo (insert a b m) = true := by
  induction m generalizing lo with
  | nil => simp [insert, wfFrom, hlo, hb, ha]
  | cons c m ih =>
    obtain ⟨k, d⟩ := c
    have hk : k ≠ a := hne (k, d) (by simp)
    simp only [wfFrom, Bool.and_eq_true, decide_eq_true_eq, bne_iff_ne] at h
    simp only [insert]
    split
    · simp only [wfFrom, Bool.and_eq_true, decide_eq_true_eq, bne_iff_ne]
      exact ⟨⟨⟨hlo, ha⟩, hb⟩, ⟨⟨by omega, h.1.1.2⟩, h.1.2⟩, h.2⟩
    · simp only [wfFrom, Bool.and_eq_true, decide_eq_true_eq, bne_iff_ne]
      exact ⟨h.1, ih (k + 1) (by omega) (fun c hc => hne c (by simp [hc])) h.2⟩

/-- A store inside the memory array keeps the canonical form. -/
theorem wf_write (font : Font) (m : Memory) (a : Nat) (b : Byte) (ha : a < Config.memSize)
    (h : wf font m = true) : wf font (write font m a b) = true := by
  simp only [write, wf] at *
  split
  · exact wfFrom_filter font _ m 0 h
  · next hb =>
    exact wfFrom_insert font _ 0 a b (by omega) ha hb (by simp) (wfFrom_filter font _ m 0 h)

/-- A block store inside the memory array keeps the canonical form. -/
theorem wf_writeBytes (font : Font) (bs : List Byte) (m : Memory) (a : Nat)
    (ha : a + bs.length ≤ Config.memSize) (h : wf font m = true) :
    wf font (writeBytes font m a bs) = true := by
  induction bs generalizing m a with
  | nil => exact h
  | cons b bs ih =>
    simp only [List.length_cons] at ha
    exact ih _ _ (by omega) (wf_write font m a b (by omega) h)

/-- The reset memory, with nothing listed, is canonical. -/
theorem wf_nil (font : Font) : wf font [] = true := rfl

end Memory

/-- Reading a byte after a block store. -/
theorem State.readByte_writeBytes (s : State) (a a' : Nat) (bs : List Byte) :
    (s.writeBytes a bs).readByte a' =
      if h : a ≤ a' ∧ a' < a + bs.length then bs[a' - a]'(by omega) else s.readByte a' :=
  Memory.read_writeBytes s.font bs s.mem a a'

/-- A block store writes exactly the block's bytes. -/
theorem State.unchangedBut_writeBytes (s : State) (a : Nat) (bs : List Byte) :
    UnchangedBut (byteParts a bs.length) s (s.writeBytes a bs) := by
  intro p hp
  cases p <;> first | rfl | skip
  rename_i a'
  rw [Part.Same, State.readByte_writeBytes, dif_neg]
  rintro ⟨h1, h2⟩
  exact hp ⟨a' - a, by omega, by congr; omega⟩

end Sys2Proof.Machine
end

