-- ==== Sys2Proof/Laws/Ops.lean ====
section
/-! SUPPORT. One lemma per shared operation, saying everything it can do; later proofs cite these and do not unfold
the operation. -/

namespace Sys2Proof.Machine

/-! ### Range-checked writes -/

theorem State.writePc_ok (s : State) {v : Nat} (h : v ≤ 0xFFF) :
    s.writePc v = .ok { s with pc := BitVec.ofNat 16 v } := by
  simp [State.writePc, Nat.not_lt.mpr h]

theorem State.writePc_error (s : State) {v : Nat} (h : 0xFFF < v) :
    s.writePc v = .error (.addressOutOfRange v) := by
  simp [State.writePc, h]

theorem State.writeI_ok (s : State) {v : Nat} (h : v ≤ 0xFFF) :
    s.writeI v = .ok { s with i := BitVec.ofNat 16 v } := by
  simp [State.writeI, Nat.not_lt.mpr h]

theorem State.writeI_error (s : State) {v : Nat} (h : 0xFFF < v) :
    s.writeI v = .error (.addressOutOfRange v) := by
  simp [State.writeI, h]

/-- A skip not taken changes nothing. -/
@[simp] theorem State.skip_false (s : State) : s.skip false = .ok s := rfl

@[simp] theorem State.skip_true (s : State) : s.skip true = s.writePc (s.pc.toNat + 2) := rfl

/-! ### The call stack -/

theorem State.push_ok (s : State) (v : Word) (h : s.sp.val < Config.stackDepth) :
    s.push v = .ok { s with stack := s.stack.set s.sp.val v h, sp := ⟨s.sp.val + 1, by omega⟩ } := by
  simp [State.push, h]

theorem State.push_full (s : State) (v : Word) (h : s.sp.val = Config.stackDepth) :
    s.push v = .error .stackOverflow := by
  simp [State.push, h]

theorem State.pop_ok (s : State) (j : Fin Config.stackDepth) (h : j.val + 1 = s.sp.val) :
    s.pop = .ok (s.stack[j], { s with sp := ⟨j.val, by omega⟩ }) := by
  have e : s.sp.val - 1 = j.val := by omega
  simp [State.pop, ← h]

theorem State.pop_empty (s : State) (h : s.sp.val = 0) : s.pop = .error .stackUnderflow := by
  simp [State.pop, h]

/-! ### Memory -/

theorem checkRange_ok {base len : Nat} (h : base + len ≤ Config.memSize) : checkRange base len = .ok () := by
  simp only [checkRange, Config.memSize] at *
  rw [if_neg (by omega)]

theorem checkRange_error {base len : Nat} (hb : base ≤ 0xFFF) (h : Config.memSize < base + len) :
    checkRange base len = .error (.addressOutOfRange 0x1000) := by
  simp only [checkRange, Config.memSize] at *
  rw [if_pos (by omega), Nat.max_eq_right (by omega)]

theorem State.memRead_ok (s : State) {a : Nat} (h : a ≤ 0xFFF) : s.memRead a = .ok (s.readByte a) := by
  simp [State.memRead, Nat.not_lt.mpr h]

theorem State.memRead_error (s : State) {a : Nat} (h : 0xFFF < a) :
    s.memRead a = .error (.addressOutOfRange a) := by
  simp [State.memRead, h]

theorem State.memWrite_ok (s : State) {a : Nat} (b : Byte) (h : a ≤ 0xFFF) :
    s.memWrite a b = .ok (s.writeBytes a [b]) := by
  simp [State.memWrite, Nat.not_lt.mpr h]

theorem State.memWrite_error (s : State) {a : Nat} (b : Byte) (h : 0xFFF < a) :
    s.memWrite a b = .error (.addressOutOfRange a) := by
  simp [State.memWrite, h]

theorem State.loadBlock_ok (s : State) {base len : Nat} (h : base + len ≤ Config.memSize) :
    s.loadBlock base len = .ok ((List.range len).map fun k => s.readByte (base + k)) := by
  simp [State.loadBlock, checkRange_ok h]

theorem State.loadBlock_error (s : State) {base len : Nat} (hb : base ≤ 0xFFF)
    (h : Config.memSize < base + len) : s.loadBlock base len = .error (.addressOutOfRange 0x1000) := by
  simp [State.loadBlock, checkRange_error hb h]

theorem State.storeBlock_ok (s : State) {base : Nat} {bs : List Byte}
    (h : base + bs.length ≤ Config.memSize) : s.storeBlock base bs = .ok (s.writeBytes base bs) := by
  simp [State.storeBlock, checkRange_ok h]

theorem State.storeBlock_error (s : State) {base : Nat} {bs : List Byte} (hb : base ≤ 0xFFF)
    (h : Config.memSize < base + bs.length) :
    s.storeBlock base bs = .error (.addressOutOfRange 0x1000) := by
  simp [State.storeBlock, checkRange_error hb h]

/-! ### What an operation has done when it answers a state -/

theorem State.writePc_eq_ok {s t : State} {v : Nat} (h : s.writePc v = .ok t) :
    v ≤ 0xFFF ∧ t = { s with pc := BitVec.ofNat 16 v } := by
  rcases Nat.lt_or_ge 0xFFF v with hv | hv
  · simp [s.writePc_error hv] at h
  · exact ⟨hv, by simpa [s.writePc_ok hv] using h.symm⟩

theorem State.writeI_eq_ok {s t : State} {v : Nat} (h : s.writeI v = .ok t) :
    v ≤ 0xFFF ∧ t = { s with i := BitVec.ofNat 16 v } := by
  rcases Nat.lt_or_ge 0xFFF v with hv | hv
  · simp [s.writeI_error hv] at h
  · exact ⟨hv, by simpa [s.writeI_ok hv] using h.symm⟩

/-- A skip that answers a state left PC alone or moved it on by 2 inside the address space. -/
theorem State.skip_eq_ok {s t : State} {c : Bool} (h : s.skip c = .ok t) :
    (c = false ∧ t = s) ∨
    (c = true ∧ s.pc.toNat + 2 ≤ 0xFFF ∧ t = { s with pc := BitVec.ofNat 16 (s.pc.toNat + 2) }) := by
  cases c with
  | false => exact .inl ⟨rfl, by simpa using h.symm⟩
  | true => exact .inr ⟨rfl, State.writePc_eq_ok h⟩

theorem State.push_eq_ok {s t : State} {v : Word} (h : s.push v = .ok t) :
    ∃ hs : s.sp.val < Config.stackDepth,
      t = { s with stack := s.stack.set s.sp.val v hs, sp := ⟨s.sp.val + 1, by omega⟩ } := by
  by_cases hs : s.sp.val < Config.stackDepth
  · exact ⟨hs, by simpa [s.push_ok v hs] using h.symm⟩
  · simp [State.push, hs] at h

theorem State.pop_eq_ok {s t : State} {v : Word} (h : s.pop = .ok (v, t)) :
    ∃ j : Fin Config.stackDepth, j.val + 1 = s.sp.val ∧ v = s.stack[j] ∧ t = { s with sp := ⟨j.val, by omega⟩ } := by
  by_cases hs : s.sp.val = 0
  · simp [s.pop_empty hs] at h
  · have hlt := s.sp.isLt
    refine ⟨⟨s.sp.val - 1, by omega⟩, by simp only; omega, ?_⟩
    rw [s.pop_ok ⟨s.sp.val - 1, by omega⟩ (by simp only; omega)] at h
    simp only [Except.ok.injEq, Prod.mk.injEq] at h
    exact ⟨h.1.symm, h.2.symm⟩

theorem State.memWrite_eq_ok {s t : State} {a : Nat} {b : Byte} (h : s.memWrite a b = .ok t) :
    a ≤ 0xFFF ∧ t = s.writeBytes a [b] := by
  rcases Nat.lt_or_ge 0xFFF a with ha | ha
  · simp [s.memWrite_error b ha] at h
  · exact ⟨ha, by simpa [s.memWrite_ok b ha] using h.symm⟩

theorem checkRange_eq_ok {base len : Nat} (h : checkRange base len = .ok ()) :
    base + len ≤ Config.memSize ∨ len = 0 := by
  simp only [checkRange] at h
  split at h
  · simp at h
  · simp only [Config.memSize]; omega

theorem State.storeBlock_eq_ok {s t : State} {base : Nat} {bs : List Byte} (h : s.storeBlock base bs = .ok t) :
    (base + bs.length ≤ Config.memSize ∨ bs.length = 0) ∧ t = s.writeBytes base bs := by
  simp only [State.storeBlock] at h
  cases hc : checkRange base bs.length with
  | error e => simp [hc, bind, Except.bind] at h
  | ok u =>
    cases u
    exact ⟨checkRange_eq_ok hc, by simpa [hc, bind, Except.bind, pure, Except.pure] using h.symm⟩

theorem State.loadBlock_eq_ok {s : State} {base len : Nat} {bs : List Byte} (h : s.loadBlock base len = .ok bs) :
    bs = (List.range len).map fun k => s.readByte (base + k) := by
  simp only [State.loadBlock] at h
  cases hc : checkRange base len with
  | error e => simp [hc, bind, Except.bind] at h
  | ok u => simpa [hc, bind, Except.bind, pure, Except.pure] using h.symm

/-! ### Registers in blocks -/

@[simp] theorem State.length_regBlock (s : State) (x : Nibble) : (s.regBlock x).length = x.toNat + 1 := by
  simp [State.regBlock]

theorem State.getElem_regBlock (s : State) (x : Nibble) (k : Nat) (h : k < (s.regBlock x).length) :
    (s.regBlock x)[k] = s.reg (BitVec.ofNat 4 k) := by
  simp [State.regBlock]

/-- Writing bytes from V[k] up: register j gets its byte where it lies in the block, else keeps its value. -/
theorem State.reg_setRegsFrom (s : State) (k : Nat) (bs : List Byte) (j : Nibble) (hk : k + bs.length ≤ 16) :
    (s.setRegsFrom k bs).reg j =
      if h : k ≤ j.toNat ∧ j.toNat < k + bs.length then bs[j.toNat - k]'(by omega) else s.reg j := by
  induction bs generalizing s k with
  | nil => rw [dif_neg (by simp)]; rfl
  | cons b bs ih =>
    simp only [List.length_cons] at hk
    simp only [State.setRegsFrom, List.length_cons]
    rw [ih _ _ (by omega)]
    have hkk : (BitVec.ofNat 4 k).toNat = k := by simp; omega
    by_cases h1 : k + 1 ≤ j.toNat ∧ j.toNat < k + 1 + bs.length
    · rw [dif_pos h1, dif_pos (by omega)]
      obtain ⟨d, hd⟩ : ∃ d, j.toNat = k + 1 + d := ⟨j.toNat - (k + 1), by omega⟩
      have e1 : j.toNat - (k + 1) = d := by omega
      have e2 : j.toNat - k = d + 1 := by omega
      simp [e1, e2]
    · rw [dif_neg h1, State.reg_setReg]
      by_cases h2 : j = BitVec.ofNat 4 k
      · have : j.toNat = k := by rw [h2, hkk]
        rw [if_pos h2, dif_pos (by omega)]
        simp [this]
      · have : j.toNat ≠ k := fun e => h2 (by rw [← e]; simp)
        rw [if_neg h2, dif_neg (by omega)]

/-- Writing registers changes registers alone. -/
theorem State.setRegsFrom_eq (s : State) (k : Nat) (bs : List Byte) :
    s.setRegsFrom k bs = { s with v := (s.setRegsFrom k bs).v } := by
  induction bs generalizing s k with
  | nil => rfl
  | cons b bs ih => exact ih (s.setReg (BitVec.ofNat 4 k) b) (k + 1)

/-! ### Ending an instruction, and errors -/

@[simp] theorem complete_ok (i : Instr) (s t : State) : complete i s (.ok t) = .next t := rfl

@[simp] theorem complete_error (i : Instr) (s : State) (e : Error) :
    complete i s (.error e) = .next (s.onError e (s.pc - 2) (encode i)) := rfl

/-- An instruction ends in the state its pseudocode answers, or in the error it raised, and in nothing else. -/
theorem complete_cases {i : Instr} {s t : State} {r : Except Error State} (h : complete i s r = .next t) :
    r = .ok t ∨ ∃ e, r = .error e ∧ t = s.onError e (s.pc - 2) (encode i) := by
  cases r with
  | ok u => exact .inl (by simpa using h)
  | error e => exact .inr ⟨e, rfl, by simpa using h.symm⟩

/-- What taking an error does. -/
theorem State.haltedWith_onError (s : State) (e : Error) (pc0 w : Word) :
    HaltedWith s (s.onError e pc0 w) e.code pc0 w e.addr := by
  refine ⟨rfl, rfl, rfl, fun p hp => ?_⟩
  cases p <;> first | rfl | simp at hp

/-! ### Fetch -/

/-- A fetch below 0xFFE gives the big-endian word and PC past it. -/
theorem State.fetch_ok (s : State) (h : s.pc.toNat ≤ 0xFFD) :
    s.fetch = .ok (s.wordAt s.pc.toNat, { s with pc := s.pc + 2 }) := by
  have h1 : checkRange s.pc.toNat 2 = .ok () := checkRange_ok (by simp only [Config.memSize]; omega)
  have h2 : BitVec.ofNat 16 (s.pc.toNat + 2) = s.pc + 2 := by
    apply BitVec.eq_of_toNat_eq; simp [BitVec.toNat_add]
  simp only [State.fetch, h1, s.memRead_ok (a := s.pc.toNat) (by omega),
    s.memRead_ok (a := s.pc.toNat + 1) (by omega), s.writePc_ok (v := s.pc.toNat + 2) (by omega), h2]
  rfl

/-- At 0xFFE both bytes are read and the advance fails. -/
theorem State.fetch_advance_error (s : State) (h : s.pc.toNat = 0xFFE) :
    s.fetch = .error (.addressOutOfRange 0x1000, s.wordAt s.pc.toNat) := by
  have h1 : checkRange s.pc.toNat 2 = .ok () := checkRange_ok (by simp only [Config.memSize]; omega)
  have e : (0x1000 : Nat) = s.pc.toNat + 2 := by omega
  simp only [State.fetch, h1, s.memRead_ok (a := s.pc.toNat) (by omega),
    s.memRead_ok (a := s.pc.toNat + 1) (by omega), s.writePc_error (v := s.pc.toNat + 2) (by omega), e]
  rfl

/-- At 0xFFF and above the second byte is out of range, so no word is read. -/
theorem State.fetch_range_error (s : State) (h : 0xFFE < s.pc.toNat) :
    s.fetch = .error (.addressOutOfRange (max s.pc.toNat 0x1000), 0) := by
  have h1 : checkRange s.pc.toNat 2 = .error (.addressOutOfRange (max s.pc.toNat 0x1000)) := by
    simp only [checkRange]; rw [if_pos (by omega)]
  simp only [State.fetch, h1]; rfl

/-- A fetch answers PC past the word, or an error of kind AddressOutOfRange with the word if both bytes were read. -/
theorem State.fetch_cases (s : State) :
    (s.pc.toNat ≤ 0xFFD ∧ s.fetch = .ok (s.wordAt s.pc.toNat, { s with pc := s.pc + 2 })) ∨
    (s.pc.toNat = 0xFFE ∧ s.fetch = .error (.addressOutOfRange 0x1000, s.wordAt s.pc.toNat)) ∨
    (0xFFE < s.pc.toNat ∧ s.fetch = .error (.addressOutOfRange (max s.pc.toNat 0x1000), 0)) := by
  rcases Nat.lt_or_ge s.pc.toNat 0xFFE with h | h
  · exact .inl ⟨by omega, s.fetch_ok (by omega)⟩
  · rcases Nat.eq_or_lt_of_le h with h | h
    · exact .inr (.inl ⟨h.symm, s.fetch_advance_error h.symm⟩)
    · exact .inr (.inr ⟨h, s.fetch_range_error h⟩)

end Sys2Proof.Machine
end

