-- ==== Sys2Proof/Laws/Flags.lean ====
section
/-! SUPPORT. What the flag computations give, in the two orders of CONFIG.FLAG_ORDER. -/

namespace Sys2Proof.Machine

@[simp] theorem boolByte_true : boolByte true = 1 := rfl

@[simp] theorem boolByte_false : boolByte false = 0 := rfl

/-- AFTER: the result from the old operands, then the flag. -/
theorem State.reg_flagOp_after (s : State) (x y j : Nibble) (result : Byte → Byte → Byte)
    (flag : Byte → Byte → Bool) (h : s.flagsBefore = false) :
    (s.flagOp x y result flag).reg j =
      if j = vf then boolByte (flag (s.reg x) (s.reg y))
      else if j = x then result (s.reg x) (s.reg y) else s.reg j := by
  simp [State.flagOp, h, State.reg_setReg]

/-- BEFORE: the flag, then the result from the operands read again. -/
theorem State.reg_flagOp_before (s : State) (x y j : Nibble) (result : Byte → Byte → Byte)
    (flag : Byte → Byte → Bool) (h : s.flagsBefore = true) :
    (s.flagOp x y result flag).reg j =
      if j = x then
        result (if x = vf then boolByte (flag (s.reg x) (s.reg y)) else s.reg x)
          (if y = vf then boolByte (flag (s.reg x) (s.reg y)) else s.reg y)
      else if j = vf then boolByte (flag (s.reg x) (s.reg y)) else s.reg j := by
  simp [State.flagOp, h, State.reg_setReg]

/-- A flag operation writes V[x] and VF alone. -/
theorem State.unchangedBut_flagOp (s : State) (x y : Nibble) (result : Byte → Byte → Byte)
    (flag : Byte → Byte → Bool) : UnchangedBut {.reg x, .reg vf} s (s.flagOp x y result flag) := by
  simp only [State.flagOp]
  split
  · exact ((s.unchangedBut_setReg vf _).trans (State.unchangedBut_setReg _ x _)).mono (by
      rintro p (rfl | rfl) <;> simp)
  · exact ((s.unchangedBut_setReg x _).trans (State.unchangedBut_setReg _ vf _)).mono (by
      rintro p (rfl | rfl) <;> simp)

end Sys2Proof.Machine
end

