-- ==== Sys2Proof/Laws/Display.lean ====
section
/-! SUPPORT. The display: pixels after a toggle, after a blit, and the pixels a sprite draws. -/

namespace Sys2Proof.Machine

/-- Toggling flips the one pixel and no other. -/
theorem Display.pixel_toggle (d : Display) {px py : Nat} (hx : px < 64) (hy : py < 32) (x y : Nat) :
    (d.toggle px py).pixel x y = if x = px ∧ y = py then !d.pixel x y else d.pixel x y := by
  simp only [Display.toggle, Display.pixel, Config.displayH, Config.displayW, hy, dite_true]
  by_cases hyy : y < 32
  · simp only [hyy, dite_true, Vector.getElem_set]
    by_cases h : py = y
    · subst h
      by_cases h' : x = px
      · subst h'; simp [hx]
      · simp [BitVec.getLsbD_twoPow, h', Ne.symm h']
    · simp [h, Ne.symm h]
  · simp only [hyy, dite_false]
    rw [if_neg (by omega)]

/-- No pixel of the blank display is set. -/
@[simp] theorem Display.pixel_blank (x y : Nat) : Display.blank.pixel x y = false := by
  simp [Display.blank, Display.pixel]

/-- A pixel after a blit of distinct pixels of the field: flipped iff it is one of them. -/
theorem Display.pixel_blit (ps : List (Nat × Nat)) (d : Display) (hit : Bool)
    (hin : ∀ p ∈ ps, p.1 < 64 ∧ p.2 < 32) (hnd : ps.Nodup) (x y : Nat) :
    (d.blit hit ps).1.pixel x y = if (x, y) ∈ ps then !d.pixel x y else d.pixel x y := by
  induction ps generalizing d hit with
  | nil => simp [Display.blit]
  | cons p ps ih =>
    obtain ⟨px, py⟩ := p
    obtain ⟨h1, h2⟩ := hin (px, py) (by simp)
    obtain ⟨hnot, hnd⟩ := List.nodup_cons.mp hnd
    simp only [Display.blit]
    rw [ih _ _ (fun p hp => hin p (by simp [hp])) hnd, d.pixel_toggle h1 h2]
    simp only [List.mem_cons, Prod.mk.injEq]
    by_cases h : x = px ∧ y = py
    · obtain ⟨rfl, rfl⟩ := h; simp [hnot]
    · simp [h]

/-- The collision flag after a blit of distinct pixels: set already, or one of the pixels was set. -/
theorem Display.hit_blit (ps : List (Nat × Nat)) (d : Display) (hit : Bool)
    (hin : ∀ p ∈ ps, p.1 < 64 ∧ p.2 < 32) (hnd : ps.Nodup) :
    (d.blit hit ps).2 = true ↔ hit = true ∨ ∃ p ∈ ps, d.pixel p.1 p.2 = true := by
  induction ps generalizing d hit with
  | nil => simp [Display.blit]
  | cons p ps ih =>
    obtain ⟨px, py⟩ := p
    obtain ⟨h1, h2⟩ := hin (px, py) (by simp)
    obtain ⟨hnot, hnd⟩ := List.nodup_cons.mp hnd
    simp only [Display.blit]
    rw [ih _ _ (fun p hp => hin p (by simp [hp])) hnd]
    have same : ∀ q ∈ ps, (d.toggle px py).pixel q.1 q.2 = d.pixel q.1 q.2 := by
      intro q hq
      rw [d.pixel_toggle h1 h2, if_neg]
      rintro ⟨e1, e2⟩
      exact hnot ((Prod.ext e1 e2 : q = (px, py)) ▸ hq)
    simp only [Bool.or_eq_true, List.mem_cons, exists_eq_or_imp]
    constructor
    · rintro ((h | h) | ⟨q, hq, h⟩)
      · exact .inl h
      · exact .inr (.inl h)
      · exact .inr (.inr ⟨q, hq, by rwa [← same q hq]⟩)
    · rintro (h | h | ⟨q, hq, h⟩)
      · exact .inl (.inl h)
      · exact .inl (.inr h)
      · exact .inr ⟨q, hq, by rwa [same q hq]⟩

/-! ### The pixels of a sprite -/

/-- A sprite pixel lands inside the field. -/
theorem placePixel_in (wrap : Bool) {px py : Nat} {p : Nat × Nat} (h : placePixel wrap px py = some p) :
    p.1 < 64 ∧ p.2 < 32 := by
  simp only [placePixel, Config.displayW, Config.displayH] at h
  split at h
  · simp only [Option.some.injEq] at h; subst h; exact ⟨Nat.mod_lt _ (by decide), Nat.mod_lt _ (by decide)⟩
  · split at h
    · simp at h
    · simp only [Option.some.injEq] at h; subst h; exact ⟨by omega, by omega⟩

/-- Where a sprite pixel lands, for a position of the field. -/
theorem placePixel_eq_some (wrap : Bool) (px py x y : Nat) (hx : x < 64) (hy : y < 32) :
    placePixel wrap px py = some (x, y) ↔
      if wrap then px % 64 = x ∧ py % 32 = y else px = x ∧ py = y := by
  simp only [placePixel, Config.displayW, Config.displayH]
  cases wrap
  · simp only [Bool.false_eq_true, if_false]
    split
    · constructor
      · simp
      · rintro ⟨rfl, rfl⟩; omega
    · simp
  · simp

theorem mem_rowPixels (wrap : Bool) (ox py : Nat) (row : Byte) (p : Nat × Nat) :
    p ∈ rowPixels wrap ox py row ↔ ∃ c, c < 8 ∧ row.getLsbD (7 - c) = true ∧ placePixel wrap (ox + c) py = some p := by
  simp only [rowPixels, List.mem_filterMap, List.mem_range]
  constructor
  · rintro ⟨c, hc, h⟩
    split at h
    · exact ⟨c, hc, ‹_›, h⟩
    · simp at h
  · rintro ⟨c, hc, hb, h⟩
    exact ⟨c, hc, by rw [if_pos hb, h]⟩

theorem mem_spritePixels (wrap : Bool) (ox oy : Nat) (rows : List Byte) (p : Nat × Nat) :
    p ∈ spritePixels wrap ox oy rows ↔
      ∃ (r : Nat) (h : r < rows.length), p ∈ rowPixels wrap ox (oy + r) rows[r] := by
  induction rows generalizing oy with
  | nil => simp [spritePixels]
  | cons row rows ih =>
    simp only [spritePixels, List.mem_append, ih]
    constructor
    · rintro (h | ⟨r, hr, h⟩)
      · exact ⟨0, by simp, by simpa using h⟩
      · exact ⟨r + 1, by simpa using hr, by simpa [Nat.add_assoc, Nat.add_comm 1] using h⟩
    · rintro ⟨r, hr, h⟩
      cases r with
      | zero => exact .inl (by simpa using h)
      | succ r => exact .inr ⟨r, by simpa using hr, by simpa [Nat.add_assoc, Nat.add_comm 1] using h⟩

/-- Every pixel a sprite draws lies in the field. -/
theorem spritePixels_in (wrap : Bool) (ox oy : Nat) (rows : List Byte) :
    ∀ p ∈ spritePixels wrap ox oy rows, p.1 < 64 ∧ p.2 < 32 := by
  intro p hp
  obtain ⟨r, _, h⟩ := (mem_spritePixels wrap ox oy rows p).mp hp
  obtain ⟨c, _, _, h⟩ := (mem_rowPixels wrap ox _ _ p).mp h
  exact placePixel_in wrap h

/-- Two positions of one row that land on one pixel are one position, if they lie less than a field apart. -/
theorem placePixel_inj_col (wrap : Bool) {a b py : Nat} {p : Nat × Nat} (hab : a < b + 64) (hba : b < a + 64)
    (ha : placePixel wrap a py = some p) (hb : placePixel wrap b py = some p) : a = b := by
  obtain ⟨x, y⟩ := p
  obtain ⟨hx, hy⟩ := placePixel_in wrap ha
  rw [placePixel_eq_some wrap a py x y hx hy] at ha
  rw [placePixel_eq_some wrap b py x y hx hy] at hb
  cases wrap <;> simp at ha hb <;> omega

/-- Two rows less than a field apart draw no common pixel. -/
theorem placePixel_inj_row (wrap : Bool) {a b c d : Nat} {p : Nat × Nat} (hcd : c < d + 32) (hdc : d < c + 32)
    (ha : placePixel wrap a c = some p) (hb : placePixel wrap b d = some p) : c = d := by
  obtain ⟨x, y⟩ := p
  obtain ⟨hx, hy⟩ := placePixel_in wrap ha
  rw [placePixel_eq_some wrap a c x y hx hy] at ha
  rw [placePixel_eq_some wrap b d x y hx hy] at hb
  cases wrap <;> simp at ha hb <;> omega

/-- A row draws each pixel at most once: 8 columns < 64 (44_display.md R192). -/
theorem nodup_rowPixels (wrap : Bool) (ox py : Nat) (row : Byte) : (rowPixels wrap ox py row).Nodup := by
  rw [rowPixels, List.Nodup, List.pairwise_filterMap]
  refine List.Pairwise.imp_of_mem ?_ (List.nodup_range (n := 8))
  intro a b ha hb hab p hp q hq heq
  simp only [List.mem_range] at ha hb
  subst heq
  split at hp
  · split at hq
    · have := placePixel_inj_col wrap (a := ox + a) (b := ox + b) (by omega) (by omega) hp hq
      omega
    · simp at hq
  · simp at hp

/-- A sprite of fewer than 32 rows draws each pixel at most once (44_display.md R192). -/
theorem nodup_spritePixels (wrap : Bool) (ox oy : Nat) (rows : List Byte) (h : rows.length < 32) :
    (spritePixels wrap ox oy rows).Nodup := by
  induction rows generalizing oy with
  | nil => simp [spritePixels]
  | cons row rows ih =>
    simp only [List.length_cons] at h
    simp only [spritePixels]
    refine List.nodup_append.mpr ⟨nodup_rowPixels wrap ox oy row, ih (oy + 1) (by omega), ?_⟩
    rintro p hp q hq rfl
    obtain ⟨r, hr, hq⟩ := (mem_spritePixels wrap ox (oy + 1) rows p).mp hq
    obtain ⟨c, _, _, hp⟩ := (mem_rowPixels wrap ox oy row p).mp hp
    obtain ⟨c', _, _, hq⟩ := (mem_rowPixels wrap ox (oy + 1 + r) rows[r] p).mp hq
    have := placePixel_inj_row wrap (c := oy) (d := oy + 1 + r) (by omega) (by omega) hp hq
    omega

/-! ### The rows a draw reads -/

/-- The rows of a sprite that fits in memory are its n bytes. -/
theorem State.spriteRows_ok (s : State) (n : Nibble) (h : n.toNat = 0 ∨ s.i.toNat + n.toNat - 1 ≤ 0xFFF) :
    s.spriteRows n = .ok ((List.range n.toNat).map fun k => s.readByte (s.i.toNat + k)) := by
  unfold State.spriteRows
  split
  · subst n; rfl
  · have hn : n.toNat ≠ 0 := fun e => ‹¬n = 0› (BitVec.eq_of_toNat_eq e)
    exact s.loadBlock_ok (by simp only [Config.memSize]; omega)

/-- A sprite that does not fit raises, whatever it would draw. -/
theorem State.spriteRows_error (s : State) (n : Nibble) (hi : s.i.toNat ≤ 0xFFF) (hn : 1 ≤ n.toNat)
    (h : 0xFFF < s.i.toNat + n.toNat - 1) : s.spriteRows n = .error (.addressOutOfRange 0x1000) := by
  have hne : n ≠ 0 := by rintro rfl; simp at hn
  rw [State.spriteRows, if_neg hne, s.loadBlock_error hi (by simp only [Config.memSize]; omega)]

/-- The pixels of the blit's list are the pixels claims say the sprite draws. -/
theorem State.mem_spritePixels_iff_draws (s : State) (x y n : Nibble) {px py : Nat} (hx : px < 64) (hy : py < 32) :
    (px, py) ∈ spritePixels s.wrapsSprites (s.reg x).toNat (s.reg y).toNat
        ((List.range n.toNat).map fun k => s.readByte (s.i.toNat + k)) ↔
      s.SpriteDraws x y n px py := by
  rw [mem_spritePixels]
  simp only [mem_rowPixels, placePixel_eq_some _ _ _ _ _ hx hy, List.length_map, List.length_range,
    List.getElem_map, List.getElem_range, State.SpriteDraws, State.spriteBit]
  constructor
  · rintro ⟨r, hr, c, hc, hb, hp⟩; exact ⟨r, c, hr, hc, hb, hp⟩
  · rintro ⟨r, c, hr, hc, hb, hp⟩; exact ⟨r, hr, c, hc, hb, hp⟩

end Sys2Proof.Machine
end

