-- ==== Sys2Proof/Laws/Encoding.lean ====
section
/-! SUPPORT. The fields of an encoded word, shape by shape (30_encoding.md R71, R76), the word rebuilt from its
fields, and all of it as arithmetic on the word's number. -/

namespace Sys2Proof

/-! ### Fields and shapes as numbers -/

theorem toNat_append {n m : Nat} (a : BitVec n) (b : BitVec m) : (a ++ b).toNat = a.toNat * 2 ^ m + b.toNat := by
  rw [BitVec.toNat_append, ← Nat.shiftLeft_add_eq_or_of_lt b.isLt, Nat.shiftLeft_eq]

theorem toNat_opField (w : Word) : (Word.opField w).toNat = w.toNat / 4096 := by
  have := w.isLt
  simp only [Word.opField, BitVec.extractLsb'_toNat, Nat.shiftRight_eq_div_pow]
  omega

theorem toNat_xField (w : Word) : (Word.xField w).toNat = w.toNat / 256 % 16 := by
  simp only [Word.xField, BitVec.extractLsb'_toNat, Nat.shiftRight_eq_div_pow]

theorem toNat_yField (w : Word) : (Word.yField w).toNat = w.toNat / 16 % 16 := by
  simp only [Word.yField, BitVec.extractLsb'_toNat, Nat.shiftRight_eq_div_pow]

theorem toNat_nField (w : Word) : (Word.nField w).toNat = w.toNat % 16 := by
  simp [Word.nField, BitVec.extractLsb'_toNat]

theorem toNat_kkField (w : Word) : (Word.kkField w).toNat = w.toNat % 256 := by
  simp [Word.kkField, BitVec.extractLsb'_toNat]

theorem toNat_nnnField (w : Word) : (Word.nnnField w).toNat = w.toNat % 4096 := by
  simp [Word.nnnField, BitVec.extractLsb'_toNat]

theorem toNat_encAddr (op : Nibble) (nnn : Addr) : (encAddr op nnn).toNat = op.toNat * 4096 + nnn.toNat :=
  toNat_append op nnn

theorem toNat_encRegImm (op x : Nibble) (kk : Byte) :
    (encRegImm op x kk).toNat = op.toNat * 4096 + x.toNat * 256 + kk.toNat := by
  have h := toNat_append (op ++ x) kk
  rw [toNat_append op x] at h
  exact h.trans (by omega)

theorem toNat_encRegReg (op x y low : Nibble) :
    (encRegReg op x y low).toNat = op.toNat * 4096 + x.toNat * 256 + y.toNat * 16 + low.toNat := by
  have h := toNat_append (op ++ x ++ y) low
  rw [toNat_append (op ++ x) y, toNat_append op x] at h
  exact h.trans (by omega)

theorem toNat_bytesToWord (a b : Byte) : (bytesToWord a b).toNat = a.toNat * 256 + b.toNat := toNat_append a b

/-! ### Shape ADDR -/

@[simp] theorem opField_encAddr (op : Nibble) (nnn : Addr) : Word.opField (encAddr op nnn) = op := by
  apply BitVec.eq_of_toNat_eq; rw [toNat_opField, toNat_encAddr]; omega

@[simp] theorem nnnField_encAddr (op : Nibble) (nnn : Addr) : Word.nnnField (encAddr op nnn) = nnn := by
  apply BitVec.eq_of_toNat_eq; rw [toNat_nnnField, toNat_encAddr]; omega

/-! ### Shapes REG_IMM and REG_SUB -/

@[simp] theorem opField_encRegImm (op x : Nibble) (kk : Byte) : Word.opField (encRegImm op x kk) = op := by
  apply BitVec.eq_of_toNat_eq; rw [toNat_opField, toNat_encRegImm]; omega

@[simp] theorem xField_encRegImm (op x : Nibble) (kk : Byte) : Word.xField (encRegImm op x kk) = x := by
  apply BitVec.eq_of_toNat_eq; rw [toNat_xField, toNat_encRegImm]; omega

@[simp] theorem kkField_encRegImm (op x : Nibble) (kk : Byte) : Word.kkField (encRegImm op x kk) = kk := by
  apply BitVec.eq_of_toNat_eq; rw [toNat_kkField, toNat_encRegImm]; omega

/-! ### Shapes REG_REG and DRAW -/

@[simp] theorem opField_encRegReg (op x y low : Nibble) : Word.opField (encRegReg op x y low) = op := by
  apply BitVec.eq_of_toNat_eq; rw [toNat_opField, toNat_encRegReg]; omega

@[simp] theorem xField_encRegReg (op x y low : Nibble) : Word.xField (encRegReg op x y low) = x := by
  apply BitVec.eq_of_toNat_eq; rw [toNat_xField, toNat_encRegReg]; omega

@[simp] theorem yField_encRegReg (op x y low : Nibble) : Word.yField (encRegReg op x y low) = y := by
  apply BitVec.eq_of_toNat_eq; rw [toNat_yField, toNat_encRegReg]; omega

@[simp] theorem nField_encRegReg (op x y low : Nibble) : Word.nField (encRegReg op x y low) = low := by
  apply BitVec.eq_of_toNat_eq; rw [toNat_nField, toNat_encRegReg]; omega

/-! ### A word is its fields -/

theorem encAddr_fields (w : Word) : encAddr (Word.opField w) (Word.nnnField w) = w := by
  apply BitVec.eq_of_toNat_eq
  rw [toNat_encAddr, toNat_opField, toNat_nnnField]; omega

theorem encRegImm_fields (w : Word) : encRegImm (Word.opField w) (Word.xField w) (Word.kkField w) = w := by
  apply BitVec.eq_of_toNat_eq
  rw [toNat_encRegImm, toNat_opField, toNat_xField, toNat_kkField]; omega

theorem encRegReg_fields (w : Word) :
    encRegReg (Word.opField w) (Word.xField w) (Word.yField w) (Word.nField w) = w := by
  apply BitVec.eq_of_toNat_eq
  rw [toNat_encRegReg, toNat_opField, toNat_xField, toNat_yField, toNat_nField]; omega

/-- The bytes of a word, put together again, are the word (20_memory.md R52). -/
theorem bytesToWord_of_word (w : Word) : bytesToWord (w.extractLsb' 8 8) (w.extractLsb' 0 8) = w := by
  apply BitVec.eq_of_toNat_eq
  have := w.isLt
  rw [toNat_bytesToWord]
  simp only [BitVec.extractLsb'_toNat, Nat.shiftRight_eq_div_pow]
  omega

/-! ### The masks of the opcode map act on each field by itself -/

theorem encAddr_and (a b : Nibble) (m n : Addr) : encAddr a m &&& encAddr b n = encAddr (a &&& b) (m &&& n) :=
  BitVec.and_append

theorem encRegImm_and (a b x y : Nibble) (m n : Byte) :
    encRegImm a x m &&& encRegImm b y n = encRegImm (a &&& b) (x &&& y) (m &&& n) :=
  BitVec.and_append.trans (congrArg (· ++ (m &&& n)) BitVec.and_append)

theorem encRegReg_and (a b x x' y y' m n : Nibble) :
    encRegReg a x y m &&& encRegReg b x' y' n = encRegReg (a &&& b) (x &&& x') (y &&& y') (m &&& n) :=
  BitVec.and_append.trans (congrArg (· ++ (m &&& n))
    (BitVec.and_append.trans (congrArg (· ++ (y &&& y')) BitVec.and_append)))

theorem nibble_and_ones (a : Nibble) : a &&& 15#4 = a := BitVec.and_allOnes

theorem byte_and_ones (a : Byte) : a &&& 255#8 = a := BitVec.and_allOnes

/-- Mask F000 keeps the family of shape ADDR. -/
theorem encAddr_mask (op : Nibble) (nnn : Addr) : encAddr op nnn &&& 0xF000 = encAddr op 0 :=
  (encAddr_and op 0xF nnn 0).trans (by simp [nibble_and_ones])

/-- Mask F000 keeps the family of shape REG_IMM. -/
theorem encRegImm_mask_op (op x : Nibble) (kk : Byte) : encRegImm op x kk &&& 0xF000 = encRegImm op 0 0 :=
  (encRegImm_and op 0xF x 0 kk 0).trans (by simp [nibble_and_ones])

/-- Mask F0FF keeps the family and the sub-selector of shape REG_SUB. -/
theorem encRegImm_mask_sub (op x : Nibble) (kk : Byte) : encRegImm op x kk &&& 0xF0FF = encRegImm op 0 kk :=
  (encRegImm_and op 0xF x 0 kk 0xFF).trans (by simp [nibble_and_ones, byte_and_ones])

/-- Mask F00F keeps the family and the sub-selector of shape REG_REG. -/
theorem encRegReg_mask_sub (op x y low : Nibble) :
    encRegReg op x y low &&& 0xF00F = encRegReg op 0 0 low :=
  (encRegReg_and op 0xF x 0 y 0 low 0xF).trans (by simp [nibble_and_ones])

/-- Mask F000 keeps the family of shape DRAW. -/
theorem encRegReg_mask_op (op x y low : Nibble) : encRegReg op x y low &&& 0xF000 = encRegReg op 0 0 0 :=
  (encRegReg_and op 0xF x 0 y 0 low 0).trans (by simp [nibble_and_ones])

/-- Every instruction's row is a row of the opcode map. -/
theorem row_mem_opcodeRows (i : Instr) : i.row ∈ opcodeRows := by
  cases i <;> simp only [Instr.row] <;> decide

end Sys2Proof
end

