-- ==== Sys2Proof/Laws/PerInstr.lean ====
section
/-! SUPPORT. Statements about every instruction, one lemma per constructor. -/

namespace Sys2Proof.Laws.Encoding

/-- The instruction's encoding is a word of its own row of the opcode map (30_encoding.md R77). -/
def Statement (i : Instr) : Prop := i.row ∈ opcodeRows ∧ i.row.admits (encode i) = true

theorem of_mask {i : Instr} (h : encode i &&& i.row.mask = i.row.pattern) : Statement i :=
  ⟨row_mem_opcodeRows i, beq_iff_eq.mpr h⟩

theorem cls : Statement .cls := of_mask rfl

theorem ret : Statement .ret := of_mask rfl

theorem jpAddr (nnn : Addr) : Statement (.jpAddr nnn) := of_mask (encAddr_mask _ nnn)

theorem call (nnn : Addr) : Statement (.call nnn) := of_mask (encAddr_mask _ nnn)

theorem seImm (x : Nibble) (kk : Byte) : Statement (.seImm x kk) := of_mask (encRegImm_mask_op _ x kk)

theorem sneImm (x : Nibble) (kk : Byte) : Statement (.sneImm x kk) := of_mask (encRegImm_mask_op _ x kk)

theorem seReg (x y : Nibble) : Statement (.seReg x y) := of_mask (encRegReg_mask_sub _ x y _)

theorem ldImm (x : Nibble) (kk : Byte) : Statement (.ldImm x kk) := of_mask (encRegImm_mask_op _ x kk)

theorem addImm (x : Nibble) (kk : Byte) : Statement (.addImm x kk) := of_mask (encRegImm_mask_op _ x kk)

theorem ldReg (x y : Nibble) : Statement (.ldReg x y) := of_mask (encRegReg_mask_sub _ x y _)

theorem orReg (x y : Nibble) : Statement (.orReg x y) := of_mask (encRegReg_mask_sub _ x y _)

theorem andReg (x y : Nibble) : Statement (.andReg x y) := of_mask (encRegReg_mask_sub _ x y _)

theorem xorReg (x y : Nibble) : Statement (.xorReg x y) := of_mask (encRegReg_mask_sub _ x y _)

theorem addReg (x y : Nibble) : Statement (.addReg x y) := of_mask (encRegReg_mask_sub _ x y _)

theorem sub (x y : Nibble) : Statement (.sub x y) := of_mask (encRegReg_mask_sub _ x y _)

theorem shr (x y : Nibble) : Statement (.shr x y) := of_mask (encRegReg_mask_sub _ x y _)

theorem subn (x y : Nibble) : Statement (.subn x y) := of_mask (encRegReg_mask_sub _ x y _)

theorem shl (x y : Nibble) : Statement (.shl x y) := of_mask (encRegReg_mask_sub _ x y _)

theorem sneReg (x y : Nibble) : Statement (.sneReg x y) := of_mask (encRegReg_mask_sub _ x y _)

theorem ldI (nnn : Addr) : Statement (.ldI nnn) := of_mask (encAddr_mask _ nnn)

theorem jpV0 (nnn : Addr) : Statement (.jpV0 nnn) := of_mask (encAddr_mask _ nnn)

theorem rnd (x : Nibble) (kk : Byte) : Statement (.rnd x kk) := of_mask (encRegImm_mask_op _ x kk)

theorem drw (x y n : Nibble) : Statement (.drw x y n) := of_mask (encRegReg_mask_op _ x y n)

theorem skp (x : Nibble) : Statement (.skp x) := of_mask (encRegImm_mask_sub _ x _)

theorem sknp (x : Nibble) : Statement (.sknp x) := of_mask (encRegImm_mask_sub _ x _)

theorem ldVDt (x : Nibble) : Statement (.ldVDt x) := of_mask (encRegImm_mask_sub _ x _)

theorem ldVK (x : Nibble) : Statement (.ldVK x) := of_mask (encRegImm_mask_sub _ x _)

theorem ldDtV (x : Nibble) : Statement (.ldDtV x) := of_mask (encRegImm_mask_sub _ x _)

theorem ldStV (x : Nibble) : Statement (.ldStV x) := of_mask (encRegImm_mask_sub _ x _)

theorem addI (x : Nibble) : Statement (.addI x) := of_mask (encRegImm_mask_sub _ x _)

theorem ldF (x : Nibble) : Statement (.ldF x) := of_mask (encRegImm_mask_sub _ x _)

theorem ldB (x : Nibble) : Statement (.ldB x) := of_mask (encRegImm_mask_sub _ x _)

theorem ldMemV (x : Nibble) : Statement (.ldMemV x) := of_mask (encRegImm_mask_sub _ x _)

theorem ldVMem (x : Nibble) : Statement (.ldVMem x) := of_mask (encRegImm_mask_sub _ x _)

end Sys2Proof.Laws.Encoding
end

