-- ==== Sys2Proof/Laws/Step.lean ====
section
/-! SUPPORT. What a cycle and a STEP are, case by case, so that later proofs do not unfold them. -/

namespace Sys2Proof.Machine

/-! ### A cycle -/

/-- A fetched word that decodes runs its instruction, PC past the word. -/
theorem cycle_decoded (s : State) {i : Instr} (hp : s.pc.toNat ≤ 0xFFD)
    (hd : decodeWord (s.wordAt s.pc.toNat) = .ok i) : cycle s = exec i { s with pc := s.pc + 2 } := by
  simp only [cycle, s.fetch_ok hp, hd]

/-- A fetched word that does not decode raises InvalidOpcode. -/
theorem cycle_invalid (s : State) {e : DecodeError} (hp : s.pc.toNat ≤ 0xFFD)
    (hd : decodeWord (s.wordAt s.pc.toNat) = .error e) :
    cycle s = .next (s.onError .invalidOpcode s.pc (s.wordAt s.pc.toNat)) := by
  simp only [cycle, s.fetch_ok hp, hd]

/-- At 0xFFE the PC advance fails, after the word was read. -/
theorem cycle_advance_error (s : State) (hp : s.pc.toNat = 0xFFE) :
    cycle s = .next (s.onError (.addressOutOfRange 0x1000) s.pc (s.wordAt s.pc.toNat)) := by
  simp only [cycle, s.fetch_advance_error hp]

/-- At 0xFFF and above no word is read. -/
theorem cycle_range_error (s : State) (hp : 0xFFE < s.pc.toNat) :
    cycle s = .next (s.onError (.addressOutOfRange (max s.pc.toNat 0x1000)) s.pc 0) := by
  simp only [cycle, s.fetch_range_error hp]

/-- A cycle runs one decoded instruction, or takes one error of the fetch or the decode, and nothing else. -/
theorem cycle_cases (s : State) :
    (∃ i, s.pc.toNat ≤ 0xFFD ∧ decodeWord (s.wordAt s.pc.toNat) = .ok i ∧
      cycle s = exec i { s with pc := s.pc + 2 }) ∨
    (∃ e w, cycle s = .next (s.onError e s.pc w) ∧
      (s.pc.toNat ≤ 0xFFE → w = s.wordAt s.pc.toNat) ∧ (0xFFE < s.pc.toNat → w = 0)) := by
  rcases Nat.lt_or_ge 0xFFE s.pc.toNat with h | h
  · exact .inr ⟨_, _, cycle_range_error s h, by omega, fun _ => rfl⟩
  · rcases Nat.eq_or_lt_of_le h with h' | h'
    · exact .inr ⟨_, _, cycle_advance_error s h', fun _ => rfl, by omega⟩
    · cases hd : decodeWord (s.wordAt s.pc.toNat) with
      | ok i => exact .inl ⟨i, by omega, rfl, cycle_decoded s (by omega) hd⟩
      | error e => exact .inr ⟨_, _, cycle_invalid s (by omega) hd, fun _ => rfl, by omega⟩

/-! ### STEP -/

theorem hostStep_running (s : State) (k : Word) (r : Byte) (h : s.runState = .running) :
    hostStep k r s = cycle (s.latched k r) := by
  simp only [hostStep, h]

theorem hostStep_halted (s : State) (k : Word) (r : Byte) (h : s.runState = .halted) :
    hostStep k r s = .next (s.latched k r) := by
  simp only [hostStep, h]

theorem hostStep_awaitingKey (s : State) (k : Word) (r : Byte) (h : s.runState = .awaitingKey) :
    hostStep k r s = .next ((s.latched k r).keyResume (k &&& ~~~s.keys)) := by
  simp only [hostStep, h]

/-- Latching writes the inputs alone. -/
theorem State.unchangedBut_latched (s : State) (k : Word) (r : Byte) :
    UnchangedBut {.keys, .rnd} s (s.latched k r) := by
  intro p hp
  cases p <;> first | rfl | simp at hp

/-! ### The lowest new key -/

theorem lowestSet_eq_some (w : Word) (k : Nat) :
    lowestSet w = some k ↔ k < 16 ∧ w.getLsbD k = true ∧ ∀ l, l < k → w.getLsbD l = false := by
  simp only [lowestSet, Config.keyCount, List.find?_range_eq_some, List.mem_range, Bool.not_eq_eq_eq_not,
    Bool.not_true]
  exact and_left_comm

theorem lowestSet_eq_none (w : Word) : lowestSet w = none ↔ w = 0 := by
  simp only [lowestSet, Config.keyCount, List.find?_eq_none, List.mem_range, Bool.not_eq_true]
  constructor
  · intro h
    ext i hi
    simpa [BitVec.getLsbD_eq_getElem hi] using h i hi
  · rintro rfl i _
    simp

/-! ### exec always answers -/

/-- Every instruction is its pseudocode's effect, ended by `complete`. -/
theorem exec_eq_complete (i : Instr) (s : State) : ∃ r, exec i s = complete i s r := by
  cases i <;> first
    | exact ⟨_, rfl⟩
    | exact ⟨.ok _, rfl⟩

end Sys2Proof.Machine
end

