-- ==== Sys2Proof/Tests/Slice0.lean ====
section
/-! SUPPORT. The model's own tests: ill-formed words, every constructor's decoding, single steps whose expected
results are the rows of 95_test_vectors.md, and for each statement a witness that its hypotheses can be met. -/

namespace Sys2Proof.Tests

open Sys2Proof.Machine

/-! ### Ill-formed words: one or more for each check (30_encoding.md R78 to R82) -/

theorem test_illFormed_system :
    wordWellFormed 0x0000 = false ∧ wordWellFormed 0x0123 = false ∧ wordWellFormed 0x01E0 = false := by decide

theorem test_illFormed_skipEqual : wordWellFormed 0x5121 = false ∧ wordWellFormed 0x512F = false := by decide

theorem test_illFormed_alu :
    wordWellFormed 0x8128 = false ∧ wordWellFormed 0x812D = false ∧ wordWellFormed 0x812F = false := by decide

theorem test_illFormed_skipNotEqual : wordWellFormed 0x9121 = false ∧ wordWellFormed 0x912F = false := by decide

theorem test_illFormed_key : wordWellFormed 0xE1A0 = false ∧ wordWellFormed 0xE19F = false := by decide

theorem test_illFormed_misc : wordWellFormed 0xF100 = false ∧ wordWellFormed 0xF090 = false := by decide

/-- The decoder refuses the same words, each under the name of its family. -/
theorem test_decode_refuses :
    decodeWord 0x01E0 = .error .unmappedSystem ∧ decodeWord 0x5121 = .error .unmappedSkipEqual ∧
    decodeWord 0x812F = .error .unmappedAlu ∧ decodeWord 0x912F = .error .unmappedSkipNotEqual ∧
    decodeWord 0xE1A0 = .error .unmappedKey ∧ decodeWord 0xF100 = .error .unmappedMisc ∧
    decodeBytes [0x12] = .error .truncated := ⟨rfl, rfl, rfl, rfl, rfl, rfl, rfl⟩

/-- There are 34 rows, and no word matches two of them: where two rows' masks both keep a bit in which their patterns
differ, they share no word (30_encoding.md R84). -/
theorem test_rows_disjoint :
    opcodeRows.length = 34 ∧
    opcodeRows.Pairwise (fun r r' => (r.pattern ^^^ r'.pattern) &&& (r.mask &&& r'.mask) ≠ 0) := by decide

/-! ### Decoding: words written out from the patterns of 30_encoding.md R77 -/

theorem test_decode_system : decodeWord 0x00E0 = .ok .cls ∧ decodeWord 0x00EE = .ok .ret := ⟨rfl, rfl⟩

theorem test_decode_jumps :
    decodeWord 0x1234 = .ok (.jpAddr 0x234) ∧ decodeWord 0x2FFF = .ok (.call 0xFFF) ∧
    decodeWord 0xB300 = .ok (.jpV0 0x300) := ⟨rfl, rfl, rfl⟩

theorem test_decode_skips :
    decodeWord 0x3342 = .ok (.seImm 0x3 0x42) ∧ decodeWord 0x4A05 = .ok (.sneImm 0xA 0x05) ∧
    decodeWord 0x5120 = .ok (.seReg 0x1 0x2) ∧ decodeWord 0x9AB0 = .ok (.sneReg 0xA 0xB) := ⟨rfl, rfl, rfl, rfl⟩

theorem test_decode_loads :
    decodeWord 0x6A2C = .ok (.ldImm 0xA 0x2C) ∧ decodeWord 0x7F01 = .ok (.addImm 0xF 0x01) ∧
    decodeWord 0xA2F0 = .ok (.ldI 0x2F0) ∧ decodeWord 0xC30F = .ok (.rnd 0x3 0x0F) := ⟨rfl, rfl, rfl, rfl⟩

theorem test_decode_alu_moves :
    decodeWord 0x8120 = .ok (.ldReg 0x1 0x2) ∧ decodeWord 0x8AB1 = .ok (.orReg 0xA 0xB) ∧
    decodeWord 0x8AB2 = .ok (.andReg 0xA 0xB) ∧ decodeWord 0x8AB3 = .ok (.xorReg 0xA 0xB) := ⟨rfl, rfl, rfl, rfl⟩

theorem test_decode_alu_flags :
    decodeWord 0x8124 = .ok (.addReg 0x1 0x2) ∧ decodeWord 0x8125 = .ok (.sub 0x1 0x2) ∧
    decodeWord 0x8126 = .ok (.shr 0x1 0x2) ∧ decodeWord 0x8127 = .ok (.subn 0x1 0x2) ∧
    decodeWord 0x812E = .ok (.shl 0x1 0x2) := ⟨rfl, rfl, rfl, rfl, rfl⟩

theorem test_decode_draw_and_keys :
    decodeWord 0xD123 = .ok (.drw 0x1 0x2 0x3) ∧ decodeWord 0xE59E = .ok (.skp 0x5) ∧
    decodeWord 0xE5A1 = .ok (.sknp 0x5) := ⟨rfl, rfl, rfl⟩

theorem test_decode_timers :
    decodeWord 0xF307 = .ok (.ldVDt 0x3) ∧ decodeWord 0xF30A = .ok (.ldVK 0x3) ∧
    decodeWord 0xF315 = .ok (.ldDtV 0x3) ∧ decodeWord 0xF318 = .ok (.ldStV 0x3) := ⟨rfl, rfl, rfl, rfl⟩

theorem test_decode_index :
    decodeWord 0xF21E = .ok (.addI 0x2) ∧ decodeWord 0xF429 = .ok (.ldF 0x4) ∧ decodeWord 0xF133 = .ok (.ldB 0x1) ∧
    decodeWord 0xF255 = .ok (.ldMemV 0x2) ∧ decodeWord 0xFF65 = .ok (.ldVMem 0xF) := ⟨rfl, rfl, rfl, rfl, rfl⟩

/-- The opcode table's numbering: bit 0 of the number is the word's least significant bit. -/
theorem test_decode_table_word :
    decodeTableWord 16 0x8124 = some (.addReg 0x1 0x2) ∧ decodeTableWord 16 0x0000 = none := ⟨rfl, rfl⟩

/-! ### Single steps (95_test_vectors.md, whose row each comment names) -/

/-- The start state of the vectors: RESET(cfg), PC = 0x200, the given registers. -/
def start (cfg : BitVec 4) (regs : List (Nibble × Byte)) : State :=
  regs.foldl (fun s p => s.setReg p.1 p.2) { State.resetWith Font.default cfg with pc := 0x200 }

/-- One STEP of the word placed at PC, with the state's own K and rnd. -/
def ran (w : Nat) (s : State) : State :=
  match step (s.withFetchWord 16 w) with
  | .next t => t
  | _ => s

/-- The state after one host operation. -/
def did (op : HostOp) (s : State) : State :=
  match hostOp op s with
  | .next t => t
  | _ => s

/-- The step ended HALTED with this record. -/
def erred (t : State) (code : ErrCode) (pc0 w addr : Word) : Bool :=
  t.runState == .halted && t.err == ⟨code, pc0, w, addr⟩

/-- The very first step after reset runs the word placed. -/
theorem test_first_after_reset : (ran 0x6A2C State.reset).reg 0xA = 0x2C ∧ (ran 0x6A2C State.reset).pc = 2 := by decide

/-- CF1 -/
theorem test_ret :
    (ran 0x00EE { start 0 [] with sp := 1, stack := (start 0 []).stack.set 0 0x202 }).pc = 0x202 := by decide

/-- CF2 -/
theorem test_ret_underflow : erred (ran 0x00EE (start 0 [])) .stackUnderflow 0x200 0x00EE 0 = true := by decide

/-- CF3 -/
theorem test_jpAddr : (ran 0x1234 (start 0 [])).pc = 0x234 := by decide

/-- CF5 -/
theorem test_call :
    (ran 0x2300 (start 0 [])).pc = 0x300 ∧ (ran 0x2300 (start 0 [])).sp = 1 ∧
    (ran 0x2300 (start 0 [])).stack[0] = 0x202 := by decide

/-- CF6 -/
theorem test_call_overflow :
    erred (ran 0x2300 { start 0 [] with sp := 16 }) .stackOverflow 0x200 0x2300 0 = true := by decide

/-- CF7, CF8 -/
theorem test_seImm :
    (ran 0x3342 (start 0 [(3, 0x42)])).pc = 0x204 ∧ (ran 0x3342 (start 0 [(3, 0x41)])).pc = 0x202 := by decide

/-- CF17 -/
theorem test_seImm_at_the_top :
    erred (ran 0x3000 { start 0 [] with pc := 0xFFC }) .addressOutOfRange 0xFFC 0x3000 0x1000 = true := by decide

/-- CF9 -/
theorem test_sneImm : (ran 0x4342 (start 0 [(3, 0x41)])).pc = 0x204 := by decide

/-- CF10 -/
theorem test_seReg : (ran 0x5120 (start 0 [(1, 7), (2, 7)])).pc = 0x204 := by decide

/-- CF11 -/
theorem test_invalid_word : erred (ran 0x5121 (start 0 [])) .invalidOpcode 0x200 0x5121 0 = true := by decide

/-- CF12 -/
theorem test_sneReg : (ran 0x9120 (start 0 [(1, 7), (2, 8)])).pc = 0x204 := by decide

/-- CF14 -/
theorem test_jpV0 : (ran 0xB300 (start 0 [(0, 0x10)])).pc = 0x310 := by decide

/-- CF15, CF16 -/
theorem test_jpV0_range :
    erred (ran 0xBF01 (start 0 [(0, 0xFF)])) .addressOutOfRange 0x200 0xBF01 0x1000 = true ∧
    (ran 0xBF00 (start 0 [(0, 0xFF)])).pc = 0xFFF := by decide

/-- FD1, FD2 -/
theorem test_fetch_at_the_top :
    erred (did (.step 0 0) { start 0 [] with pc := 0xFFE, mem := [(0xFFE, 0x60)] }) .addressOutOfRange 0xFFE 0x6000 0x1000 =
      true ∧
    erred (did (.step 0 0) { start 0 [] with pc := 0xFFF }) .addressOutOfRange 0xFFF 0 0x1000 = true := by decide

/-- AL1 -/
theorem test_ldImm : (ran 0x6A2C (start 0 [])).reg 0xA = 0x2C := by decide

/-- S1, AL2 -/
theorem test_addImm :
    (ran 0x700A (start 0 [(0, 250)])).reg 0 = 4 ∧ (ran 0x700A (start 0 [(0, 250)])).reg vf = 0 ∧
    (ran 0x7F01 (start 0 [(0xF, 0xFF)])).reg vf = 0 := by decide

/-- AL3 -/
theorem test_ldReg : (ran 0x8120 (start 0 [(2, 0x99)])).reg 1 = 0x99 := by decide

/-- AL4 -/
theorem test_orReg :
    (ran 0x8121 (start 0 [(1, 0x0F), (2, 0xF0), (0xF, 0x55)])).reg 1 = 0xFF ∧
    (ran 0x8121 (start 0 [(1, 0x0F), (2, 0xF0), (0xF, 0x55)])).reg vf = 0x55 := by decide

/-- AL5 -/
theorem test_andReg : (ran 0x8122 (start 0 [(1, 0x3C), (2, 0x0F)])).reg 1 = 0x0C := by decide

/-- the example of 42_alu.md R146 -/
theorem test_xorReg : (ran 0x8123 (start 0 [(1, 0x3C), (2, 0x0F)])).reg 1 = 0x33 := by decide

/-- S2 -/
theorem test_addReg :
    (ran 0x8124 (start 0 [(1, 200), (2, 100)])).reg 1 = 44 ∧ (ran 0x8124 (start 0 [(1, 200), (2, 100)])).reg vf = 1 := by
  decide

/-- AL19 to AL22: the two flag orders -/
theorem test_addReg_flag_order :
    (ran 0x8F14 (start 0b0000 [(0xF, 0xF0), (1, 0x20)])).reg vf = 1 ∧
    (ran 0x8F14 (start 0b0100 [(0xF, 0xF0), (1, 0x20)])).reg vf = 0x21 ∧
    (ran 0x81F4 (start 0b0000 [(1, 0xFF), (0xF, 2)])).reg 1 = 1 ∧
    (ran 0x81F4 (start 0b0100 [(1, 0xFF), (0xF, 2)])).reg 1 = 0 := by decide

/-- S5, AL11 -/
theorem test_sub :
    (ran 0x8125 (start 0b0000 [(1, 3), (2, 10)])).reg 1 = 0xF9 ∧
    (ran 0x8125 (start 0b0000 [(1, 3), (2, 10)])).reg vf = 0 ∧
    (ran 0x8125 (start 0b0010 [(1, 3), (2, 10)])).reg vf = 1 := by decide

/-- AL8, AL9: equal operands -/
theorem test_sub_equal :
    (ran 0x8125 (start 0b0000 [(1, 5), (2, 5)])).reg vf = 1 ∧
    (ran 0x8125 (start 0b0010 [(1, 5), (2, 5)])).reg vf = 0 := by decide

/-- AL12, AL13 -/
theorem test_subn :
    (ran 0x8127 (start 0 [(1, 3), (2, 10)])).reg 1 = 7 ∧ (ran 0x8127 (start 0 [(1, 3), (2, 10)])).reg vf = 1 ∧
    (ran 0x8127 (start 0 [(1, 10), (2, 3)])).reg 1 = 0xF9 := by decide

/-- AL14, AL16 -/
theorem test_shr :
    (ran 0x8126 (start 0b0000 [(1, 5), (2, 4)])).reg 1 = 2 ∧ (ran 0x8126 (start 0b0000 [(1, 5), (2, 4)])).reg vf = 1 ∧
    (ran 0x8126 (start 0b0001 [(1, 0x10), (2, 0x81)])).reg 1 = 0x40 := by decide

/-- AL17, AL18 -/
theorem test_shl :
    (ran 0x810E (start 0b0000 [(1, 0x81)])).reg 1 = 2 ∧ (ran 0x810E (start 0b0000 [(1, 0x81)])).reg vf = 1 ∧
    (ran 0x812E (start 0b0001 [(1, 1), (2, 0xC0)])).reg 1 = 0x80 := by decide

/-- AL28 -/
theorem test_rnd : (ran 0xC30F { start 0 [] with rnd := 0xB7 }).reg 3 = 0x07 := by decide

/-- IM1 -/
theorem test_ldI : (ran 0xA2F0 (start 0 [])).i = 0x2F0 := by decide

/-- IM3, IM4 -/
theorem test_addI :
    erred (ran 0xF21E { start 0 [(2, 0xFF)] with i := 0xF01 }) .addressOutOfRange 0x200 0xF21E 0x1000 = true ∧
    (ran 0xF21E { start 0 [(2, 0xFF)] with i := 0xF00 }).i = 0xFFF := by decide

/-- IM5, IM6 -/
theorem test_ldF : (ran 0xF429 (start 0 [(4, 0x0A)])).i = 0x32 ∧ (ran 0xF429 (start 0 [(4, 0xFF)])).i = 0x4FB := by
  decide

/-- S11 -/
theorem test_ldB :
    (ran 0xF133 { start 0 [(1, 157)] with i := 0x300 }).readByte 0x300 = 1 ∧
    (ran 0xF133 { start 0 [(1, 157)] with i := 0x300 }).readByte 0x301 = 5 ∧
    (ran 0xF133 { start 0 [(1, 157)] with i := 0x300 }).readByte 0x302 = 7 := by decide

/-- IM10 -/
theorem test_ldB_range :
    erred (ran 0xF133 { start 0 [(1, 7)] with i := 0xFFE }) .addressOutOfRange 0x200 0xF133 0x1000 = true := by decide

/-- IM11 -/
theorem test_ldMemV :
    (ran 0xF255 { start 0 [(0, 1), (1, 2), (2, 3), (3, 4)] with i := 0x400 }).mem =
      [(0x200, 0xF2), (0x201, 0x55), (0x400, 1), (0x401, 2), (0x402, 3)] := by decide

/-- IM13 -/
theorem test_ldMemV_range :
    erred (ran 0xFF55 { start 0 [(0, 9)] with i := 0xFF1 }) .addressOutOfRange 0x200 0xFF55 0x1000 = true := by decide

/-- IM14 -/
theorem test_ldVMem :
    (ran 0xF265 { start 0 [(3, 0x77)] with i := 0x400, mem := [(0x400, 1), (0x401, 2), (0x402, 3)] }).v.toList.take 4 =
      [1, 2, 3, 0x77] := by decide

/-- DS1 -/
theorem test_cls :
    (ran 0x00E0 { start 0 [] with display := (start 0 []).display.set 31 0x8000000000000001 }).display =
      Vector.replicate 32 0 := by decide

/-- DS6, DS7: row F0 at column 62, clipped and wrapped -/
theorem test_drw_edges :
    (ran 0xD011 (start 0b0000 [(0, 62)])).display[0] = 0xC000000000000000 ∧
    (ran 0xD011 (start 0b1000 [(0, 62)])).display[0] = 0xC000000000000003 := by decide

/-- DS3: the collision, and the bit order of a row -/
theorem test_drw_collision :
    (ran 0xD011 { start 0 [] with display := (start 0 []).display.set 0 1 }).display[0] = 0b1110 ∧
    (ran 0xD011 { start 0 [] with display := (start 0 []).display.set 0 1 }).reg vf = 1 := by decide

/-- TM1 -/
theorem test_ldVDt : (ran 0xF307 { start 0 [] with dt := 0x3C }).reg 3 = 0x3C := by decide

/-- TM2 -/
theorem test_ldDtV : (ran 0xF315 (start 0 [(3, 0x3C)])).dt = 0x3C := by decide

/-- TM3 -/
theorem test_ldStV : (ran 0xF318 (start 0 [(3, 2)])).st = 2 ∧ (ran 0xF318 (start 0 [(3, 2)])).sound = true := by decide

/-- TM4, TM5 -/
theorem test_tick :
    (did .tick { start 0 [] with dt := 2, st := 1 }).dt = 1 ∧ (did .tick { start 0 [] with dt := 2, st := 1 }).st = 0 ∧
    (did .tick (start 0 [])).dt = 0 := by decide

/-- KY1, KY4 -/
theorem test_skp :
    (ran 0xE59E { start 0 [(5, 0x0A)] with keys := 0x0400 }).pc = 0x204 ∧
    erred (ran 0xE59E { start 0 [(5, 0x10)] with keys := 0xFFFF }) .addressOutOfRange 0x200 0xE59E 0x0010 = true := by
  decide

/-- KY3 -/
theorem test_sknp : (ran 0xE5A1 (start 0 [(5, 0x0A)])).pc = 0x204 := by decide

/-- KY5 -/
theorem test_ldVK :
    (ran 0xF30A { start 0 [] with keys := 1 }).runState = .awaitingKey ∧
    (ran 0xF30A { start 0 [] with keys := 1 }).waitX = 3 ∧ (ran 0xF30A { start 0 [] with keys := 1 }).pc = 0x202 := by
  decide

/-- KY6, KY8 -/
theorem test_key_resume :
    (did (.step 1 0) { start 0 [] with runState := .awaitingKey, waitX := 3, keys := 1 }).runState = .awaitingKey ∧
    (did (.step 0x8120 0) { start 0 [] with runState := .awaitingKey, waitX := 3 }).reg 3 = 5 ∧
    (did (.step 0x8120 0) { start 0 [] with runState := .awaitingKey, waitX := 3 }).runState = .running := by decide

/-- HO4, HO5 -/
theorem test_load :
    (did (.load []) State.reset).pc = 0x200 ∧
    (did (.load [0x12, 0x34]) { start 0 [] with runState := .halted }).mem = [(0x200, 0x12), (0x201, 0x34)] ∧
    (did (.load [0x12, 0x34]) { start 0 [] with runState := .halted }).runState = .halted := by decide

/-- 20_memory.md R58: the font may be overwritten, and writing the font's own byte back lists nothing. -/
theorem test_memory_canonical :
    ((start 0 []).writeBytes 0 [0x11]).mem = [(0, 0x11)] ∧
    (((start 0 []).writeBytes 0 [0x11]).writeBytes 0 [0xF0]).mem = [] := by decide

/-! ### Witnesses: for each statement with hypotheses, states and operands that meet them, at the boundaries -/

/-- A running state at 0x200 with these two bytes there. -/
def holding (hi lo : Byte) : State := (start 0 []).writeBytes 0x200 [hi, lo]

theorem witness_DecodedWordEncodesBack : decodeWord 0xD015 = .ok (.drw 0x0 0x1 0x5) := rfl

theorem witness_DecoderAgreesWithTheOpcodeTable :
    decodeWord 0x812E = .ok (.shl 0x1 0x2) ∧ (Instr.row (.shl 0x1 0x2)).admits 0x812E = true ∧
    decodeWord 0x812F = .error .unmappedAlu := ⟨rfl, by decide, rfl⟩

theorem witness_StepRunsTheDecodedInstruction :
    ({ start 0 [] with pending := [.tick] }).pending = .tick :: [] ∧ (start 0 []).pending = [] ∧
    (holding 0x81 0x24).runState = .running ∧ (holding 0x81 0x24).pc.toNat ≤ 0xFFD ∧
    decodeWord ((holding 0x81 0x24).wordAt (holding 0x81 0x24).pc.toNat) = .ok (.addReg 0x1 0x2) := by
  refine ⟨rfl, rfl, rfl, by decide, rfl⟩

/-- The last PC an instruction runs from. -/
theorem witness_StepRunsTheDecodedInstruction_top :
    ({ start 0 [] with pc := 0xFFD, mem := [(0xFFD, 0x12)] } : State).pc.toNat = 0xFFD ∧
    decodeWord (({ start 0 [] with pc := 0xFFD, mem := [(0xFFD, 0x12)] } : State).wordAt 0xFFD) =
      .ok (.jpAddr 0x200) := ⟨rfl, rfl⟩

theorem witness_InvalidWordRaisesInvalidOpcode :
    (holding 0x01 0xE0).runState = .running ∧ (holding 0x01 0xE0).pc.toNat ≤ 0xFFD ∧
    decodeWord ((holding 0x01 0xE0).wordAt (holding 0x01 0xE0).pc.toNat) = .error .unmappedSystem :=
  ⟨rfl, by decide, rfl⟩

theorem witness_FetchAtTheTopRaisesAddressOutOfRange :
    ({ start 0 [] with pc := 0xFFF } : State).runState = .running ∧
    ({ start 0 [] with pc := 0xFFF } : State).pc.toNat = 0xFFF ∧
    ({ start 0 [] with pc := 0xFFE } : State).pc.toNat = 0xFFE := ⟨rfl, rfl, rfl⟩

/-- The errors of the decode, of the fetch and of an instruction. -/
theorem witness_EveryErrorIsPrecise :
    (∃ t, hostStep 1 0 (holding 0x01 0xE0) = .next t ∧ t.runState = .halted) ∧
    (∃ t, hostStep 1 0 { start 0 [] with pc := 0xFFF } = .next t ∧ t.runState = .halted) ∧
    (∃ t, hostStep 1 0 { start 0 [] with pc := 0xFFE } = .next t ∧ t.runState = .halted) ∧
    (∃ t, hostStep 1 0 (holding 0x00 0xEE) = .next t ∧ t.runState = .halted) :=
  ⟨⟨_, rfl, rfl⟩, ⟨_, rfl, rfl⟩, ⟨_, rfl, rfl⟩, ⟨_, rfl, rfl⟩⟩

theorem witness_HaltedIsLeftOnlyByReset :
    (∃ t, step { start 0 [] with runState := .halted, pending := [.step 1 0] } = .next t ∧ t.runState = .halted) ∧
    ∃ t, step { start 0 [] with runState := .halted, pending := [.reset 0] } = .next t ∧ t.runState = .running :=
  ⟨⟨_, rfl, rfl⟩, ⟨_, rfl, rfl⟩⟩

theorem witness_RunStateTransitions :
    (∃ t, hostOp (.step 0 0) (holding 0xF3 0x0A) = .next t ∧ t.runState = .awaitingKey) ∧
    (∃ t, hostOp (.step 0 0) (holding 0x00 0xEE) = .next t ∧ t.runState = .halted) ∧
    (∃ t, hostOp (.step 0 0) (holding 0x00 0xE0) = .next t ∧ t.runState = .running) ∧
    (∃ t, hostOp (.step 1 0) { start 0 [] with runState := .awaitingKey } = .next t ∧ t.runState = .running) ∧
    (∃ t, hostOp (.step 0 0) { start 0 [] with runState := .awaitingKey } = .next t ∧ t.runState = .awaitingKey) ∧
    (∃ t, hostOp (.step 0 0) { start 0 [] with runState := .halted } = .next t ∧ t.runState = .halted) :=
  ⟨⟨_, rfl, rfl⟩, ⟨_, rfl, rfl⟩, ⟨_, rfl, rfl⟩, ⟨_, rfl, rfl⟩, ⟨_, rfl, rfl⟩, ⟨_, rfl, rfl⟩⟩

/-- No edge; the lowest key; the highest key alone. -/
theorem witness_KeyResumeTakesTheLowestNewKey :
    (1 : Word) &&& ~~~1 = 0 ∧ ((1 : Word).getLsbD 0 = true ∧ (0 : Word).getLsbD 0 = false) ∧
    ((0x8000 : Word).getLsbD 15 = true ∧ (0 : Word).getLsbD 15 = false) ∧
    (∀ l, l < 15 → ¬((0x8000 : Word).getLsbD l = true ∧ (0 : Word).getLsbD l = false)) ∧
    ({ start 0 [] with runState := .awaitingKey, keys := 0 } : State).runState = .awaitingKey := by decide

theorem witness_SelfJumpLoopsForEver :
    decodeWord ((holding 0x12 0x00).wordAt (holding 0x12 0x00).pc.toNat) = .ok (.jpAddr 0x200) ∧
    (0x200 : Addr).toNat = (holding 0x12 0x00).pc.toNat ∧ (holding 0x12 0x00).runState = .running := ⟨rfl, rfl, rfl⟩

/-- A state of the invariant beside the reset state: mid-program, memory written, two calls deep. -/
def midway : State :=
  { (start 0 [(1, 7)]).writeBytes 0x200 [0x81, 0x24] with
    sp := 2
    stack := (Vector.replicate 16 0).set 0 0x206 |>.set 1 0xFFF
    i := 0xFFF
    pending := [.step 0 0] }

theorem witness_EveryStepKeepsTheInvariant : midway.Inv ∧ ∃ t, step midway = .next t :=
  ⟨⟨by decide, by decide, by decide, by decide, by decide, by decide, by decide⟩, ⟨_, rfl⟩⟩

/-- A halted state of the invariant. -/
theorem witness_EveryStepKeepsTheInvariant_halted :
    ({ midway with runState := .halted, err := ⟨.addressOutOfRange, 0x200, 0xFF55, 0x1000⟩ } : State).Inv :=
  ⟨by decide, by decide, by decide, by decide, by decide, by decide, by decide⟩

/-- An instruction that completes, and one that raises. -/
theorem witness_NoInstructionWritesOutsideItsFootprint :
    (start 0 []).runState = .running ∧ (∃ t, exec (.ldB 0x1) (start 0 []) = .next t ∧ t.runState = .running) ∧
    ∃ t, exec .ret (start 0 []) = .next t ∧ t.runState = .halted := ⟨rfl, ⟨_, rfl, rfl⟩, ⟨_, rfl, rfl⟩⟩

theorem witness_VfIsWrittenOnlyByTheListedInstructions :
    (∃ t, exec (.ldImm 0xE 0x01) (start 0 []) = .next t) ∧ ¬WritesVf (.ldImm 0xE 0x01) :=
  ⟨⟨_, rfl⟩, by simp [WritesVf]⟩

theorem witness_ConfigChangesOnlyAtReset :
    (∃ t, step { start 0 [] with pending := [.tick] } = .next t ∧ t.config = 0) ∧
    ∃ t, step { start 0 [] with pending := [.reset 0b1010] } = .next t ∧ t.config = 0b1010 :=
  ⟨⟨_, rfl, rfl⟩, ⟨_, rfl, rfl⟩⟩

theorem witness_DisplayChangesOnlyByClearDrawAndReset :
    (∃ t, exec (.ldI 0x300) (start 0 []) = .next t) ∧ Instr.ldI 0x300 ≠ .cls ∧
    (∃ t, hostOp .tick (start 0 []) = .next t) ∧
    (∃ t, hostOp (.step 1 0) { start 0 [] with runState := .awaitingKey } = .next t) :=
  ⟨⟨_, rfl⟩, by decide, ⟨_, rfl⟩, ⟨_, rfl⟩⟩

theorem witness_ResetInitialisesTheWholeState :
    ({ midway with pending := [.reset 0b1010, .tick] } : State).pending = .reset 0b1010 :: [.tick] := rfl

theorem witness_BootSequenceStartsTheProgram :
    ({ midway with pending := [.reset 0, .load (List.replicate 3584 1)] } : State).pending =
      .reset 0 :: .load (List.replicate 3584 1) :: [] ∧
    0x200 + (List.replicate 3584 (1 : Byte)).length ≤ 0x1000 := ⟨rfl, by rw [List.length_replicate]⟩

/-- The largest image that fits, and one byte more. -/
theorem witness_LoadCopiesTheImageOrRefusesIt :
    ({ midway with pending := [.load [0x12]] } : State).pending = .load [0x12] :: [] ∧
    0x200 + (List.replicate 3584 (1 : Byte)).length ≤ 0x1000 ∧
    0x200 + (List.replicate 3585 (1 : Byte)).length > 0x1000 :=
  ⟨rfl, by rw [List.length_replicate], by rw [List.length_replicate]; decide⟩

theorem witness_TickCountsBothTimersDown :
    ({ midway with dt := 0, st := 255, pending := [.tick] } : State).pending = .tick :: [] := rfl

/-- The corners of the field; sound off and on. -/
theorem witness_OutputPortsShowDisplayAndSound :
    (0 < 64 ∧ 63 < 64) ∧ (0 < 32 ∧ 31 < 32) ∧ (start 0 [(3, 0)]).sound = false ∧
    ({ start 0 [] with st := 1 } : State).sound = true := by decide

/-- The last address, and the first beyond it. -/
theorem witness_MemoryPrimitivesReadBackAndCheckBounds :
    (∃ t, (start 0 []).memWrite 0xFFF 0x12 = .ok t ∧ t.memRead 0xFFF = .ok 0x12) ∧
    (start 0 []).memRead 0x1000 = .error (.addressOutOfRange 0x1000) := ⟨⟨_, rfl, rfl⟩, rfl⟩

theorem witness_StoredInstructionIsFetchedNext :
    let s : State := { start 0 [(0, 0x6A), (1, 0x2C)] with pc := 0xFFD, i := 0xFFD }
    s.runState = .running ∧ s.pc.toNat ≤ 0xFFD ∧ s.i = s.pc ∧ 1 ≤ (1 : Nibble).toNat ∧
    s.i.toNat + (1 : Nibble).toNat ≤ 0xFFF ∧ decodeWord (bytesToWord (s.reg 0) (s.reg 1)) = .ok (.ldImm 0xA 0x2C) :=
  ⟨rfl, by decide, rfl, by decide, by decide, rfl⟩

/-- One entry, a full stack, an empty one. -/
theorem witness_ReturnPopsIntoPc :
    ((0 : Fin 16).val + 1 = ({ midway with sp := 1 } : State).sp.val ∧ midway.stack[(0 : Fin 16)].toNat ≤ 0xFFF) ∧
    ((15 : Fin 16).val + 1 = ({ midway with sp := 16 } : State).sp.val ∧ midway.stack[(15 : Fin 16)].toNat ≤ 0xFFF) ∧
    (start 0 []).sp.val = 0 := by decide

/-- An empty stack, the last free slot, a full stack. -/
theorem witness_CallPushesTheReturnAddress :
    (start 0 []).sp.val = (0 : Fin 16).val ∧ ({ midway with sp := 15 } : State).sp.val = (15 : Fin 16).val ∧
    ({ midway with sp := 16 } : State).sp.val = 16 := by decide

theorem witness_CallAndReturnLaw :
    (({ midway with sp := 15, pc := 0xFFD } : State).sp.val < 16 ∧
      ({ midway with sp := 15, pc := 0xFFD } : State).pc.toNat ≤ 0xFFD) ∧
    (start 0 []).sp.val = 0 ∧ (List.replicate 16 (0x200 : Addr)).length = 16 := by decide

/-- The skip's own boundary: taken at PC 0xFFD (as fetch leaves it) it completes, at 0xFFE it raises. -/
theorem witness_RegisterSkipsCompareAsTheirPatternsSay :
    (({ start 0 [] with pc := 0xFFD } : State).reg 1 = 0 ∧ ({ start 0 [] with pc := 0xFFD } : State).pc.toNat ≤ 0xFFD) ∧
    ({ start 0 [] with pc := 0xFFE } : State).pc.toNat = 0xFFE ∧
    (start 0 [(1, 1)]).reg 1 ≠ (start 0 [(1, 1)]).reg 2 := by decide

theorem witness_SkipTakenAtTheOddTopRaises :
    ({ start 0 [(1, 1)] with pc := 0xFFF } : State).pc.toNat = 0xFFF ∧ (start 0 [(1, 1)]).reg 1 = 1 ∧
    (start 0 [(1, 1)]).reg 1 ≠ (start 0 [(1, 1)]).reg 2 ∧ (start 0 [(1, 1)]).reg 2 = (start 0 [(1, 1)]).reg 3 ∧
    ((start 0 [(1, 1)]).reg 1).toNat ≤ 0x0F ∧ (start 0 [(1, 1)]).keys.getLsbD 1 = false ∧
    ({ start 0 [(1, 1)] with keys := 2 } : State).keys.getLsbD 1 = true := by decide

theorem witness_ComputedJumpAddsV0 :
    (0xF00 : Addr).toNat + ((start 0 [(0, 0xFF)]).reg 0).toNat ≤ 0xFFF ∧
    0xFFF < (0xF01 : Addr).toNat + ((start 0 [(0, 0xFF)]).reg 0).toNat := by decide

/-- Both values of each flag, at the boundary of its condition: carry 255 and 256, borrow equal and one less, the
source's bit 0 and bit 7. -/
theorem witness_flag_operations :
    (¬(0xFE + 1 > 0xFF) ∧ 0xFF + 1 > 0xFF) ∧ (¬(5 < 5) ∧ 4 < 5) ∧ (1 % 2 = 1 ∧ ¬(2 % 2 = 1)) ∧
    (128 ≥ 128 ∧ ¬(127 ≥ 128)) ∧ (start 0b0100 []).config.getLsbD 2 = true ∧
    (start 0b1011 []).config.getLsbD 2 = false := by decide

theorem witness_FlagOrdersAgreeAwayFromVf :
    (1 : Nibble) ≠ vf ∧ (2 : Nibble) ≠ vf ∧ Instr.sub 1 2 ∈ [Instr.addReg 1 2, .sub 1 2, .shr 1 2, .subn 1 2, .shl 1 2] ∧
    (∃ t, exec (.sub 1 2) { start 0 [] with config := 0 ||| 0b0100 } = .next t) ∧
    ∃ u, exec (.sub 1 2) { start 0 [] with config := 0 &&& 0b1011 } = .next u :=
  ⟨by decide, by decide, by decide, ⟨_, rfl⟩, ⟨_, rfl⟩⟩

theorem witness_RandomMasksTheByteOfItsStep :
    decodeWord ((holding 0xC3 0x0F).wordAt (holding 0xC3 0x0F).pc.toNat) = .ok (.rnd 0x3 0x0F) ∧
    (holding 0xC3 0x0F).runState = .running ∧ (holding 0xC3 0x0F).pc.toNat ≤ 0xFFD := ⟨rfl, rfl, by decide⟩

/-- I + V[x] = 0xFFF and 0x1000. -/
theorem witness_AddToIndexIsRangeChecked :
    (({ start 0 [(2, 0xFF)] with i := 0xF00 } : State).i.toNat + 0xFF ≤ 0xFFF) ∧
    ({ start 0 [(2, 0xFF)] with i := 0xF01 } : State).i.toNat ≤ 0xFFF ∧
    0xFFF < ({ start 0 [(2, 0xFF)] with i := 0xF01 } : State).i.toNat + ((start 0 [(2, 0xFF)]).reg 2).toNat := by decide

/-- I = 0xFFD and 0xFFE. -/
theorem witness_DecimalDigitsAreStoredAtI :
    ({ start 0 [] with i := 0xFFD } : State).i.toNat + 2 ≤ 0xFFF ∧ ({ start 0 [] with i := 0xFFE } : State).i.toNat ≤ 0xFFF ∧
    0xFFF < ({ start 0 [] with i := 0xFFE } : State).i.toNat + 2 := by decide

/-- x = 15 with I = 0xFF0 and 0xFF1. -/
theorem witness_BlockStoreWritesV0ToVx :
    ({ start 0 [] with i := 0xFF0 } : State).i.toNat + (15 : Nibble).toNat ≤ 0xFFF ∧
    ({ start 0 [] with i := 0xFF1 } : State).i.toNat ≤ 0xFFF ∧
    0xFFF < ({ start 0 [] with i := 0xFF1 } : State).i.toNat + (15 : Nibble).toNat := by decide

/-- x = 0 with I = 0xFFF, x = 1 there, and a block with a byte in it. -/
theorem witness_BlockLoadReadsV0ToVx :
    ({ start 0 [] with i := 0xFFF } : State).i.toNat + (0 : Nibble).toNat ≤ 0xFFF ∧
    0xFFF < ({ start 0 [] with i := 0xFFF } : State).i.toNat + (1 : Nibble).toNat ∧
    ({ start 0 [] with i := 0x400, mem := [(0x400, 1)] } : State).readByte 0x400 = 1 := by decide

/-- The state after the store, its registers cleared, is such a `u`. -/
theorem witness_BlockStoreThenLoadRestoresTheRegisters :
    ({ start 0 [(0, 9)] with i := 0xFF0 } : State).i.toNat + (15 : Nibble).toNat ≤ 0xFFF ∧
    ∃ t, exec (.ldMemV 15) { start 0 [(0, 9)] with i := 0xFF0 } = .next t ∧
      ({ t with v := Vector.replicate 16 0 } : State).i = t.i ∧
      ∀ a, ({ t with v := Vector.replicate 16 0 } : State).readByte a = t.readByte a :=
  ⟨by decide, ⟨_, rfl, rfl, fun _ => rfl⟩⟩

/-- n = 0 with I = 0xFFF; n = 1 there fits; n = 2 there does not. -/
theorem witness_DrawTogglesExactlyTheSpritePixels :
    ({ start 0 [] with i := 0xFFF } : State).i.toNat ≤ 0xFFF ∧ (0 : Nibble).toNat = 0 ∧
    ({ start 0 [] with i := 0xFFF } : State).i.toNat + (1 : Nibble).toNat - 1 ≤ 0xFFF ∧
    1 ≤ (2 : Nibble).toNat ∧ 0xFFF < ({ start 0 [] with i := 0xFFF } : State).i.toNat + (2 : Nibble).toNat - 1 := by
  decide

/-- A pixel the sprite draws, and one it does not, under both edge modes. -/
theorem witness_SpriteDraws :
    (start 0b0000 [(0, 62)]).SpriteDraws 0 1 1 63 0 ∧ ¬(start 0b0000 [(0, 62)]).SpriteDraws 0 1 1 0 0 ∧
    (start 0b1000 [(0, 62)]).SpriteDraws 0 1 1 0 0 := by
  refine ⟨⟨0, 1, by decide, by decide, by decide, by decide⟩, ?_, ⟨0, 2, by decide, by decide, by decide, by decide⟩⟩
  rintro ⟨r, c, _, _, _, h⟩
  have hw : (start 0b0000 [(0, 62)]).wrapsSprites = false := by decide
  have hv : ((start 0b0000 [(0, 62)]).reg 0).toNat = 62 := by decide
  rw [hw, hv] at h
  simp at h

theorem witness_DrawingTwiceRestoresTheDisplay :
    (0 : Nibble) ≠ vf ∧ (1 : Nibble) ≠ vf ∧ (start 0 []).i.toNat ≤ 0xFFF ∧
    (start 0 []).i.toNat + (15 : Nibble).toNat - 1 ≤ 0xFFF ∧ (start 0 []).SpriteDraws 0 1 5 0 0 :=
  ⟨by decide, by decide, by decide, by decide, ⟨0, 0, by decide, by decide, by decide, by decide⟩⟩

/-- V[x] = 15 and 16, and a fetched SKP and SKNP at the last PC the last clause admits. -/
theorem witness_KeySkipsTestTheNamedKey :
    ((start 0 [(5, 0x0F)]).reg 5).toNat ≤ 0x0F ∧ 0x0F < ((start 0 [(5, 0x10)]).reg 5).toNat ∧
    (let s : State := { start 0 [(5, 0x0F)] with pc := 0xFFB, mem := [(0xFFB, 0xE5), (0xFFC, 0x9E)] }
     s.runState = .running ∧ s.pc.toNat ≤ 0xFFB ∧ decodeWord (s.wordAt s.pc.toNat) = .ok (.skp 5)) ∧
    (let s : State := { start 0 [(5, 0x0F)] with pc := 0xFFB, mem := [(0xFFB, 0xE5), (0xFFC, 0xA1)] }
     decodeWord (s.wordAt s.pc.toNat) = .ok (.sknp 5)) := ⟨by decide, by decide, ⟨rfl, by decide, rfl⟩, rfl⟩

end Sys2Proof.Tests
end

section
/-! PROOFS. What an instruction can do to the state, said once. -/

namespace Sys2Proof.Machine

/-! ### Effects -/

/-- The ways an instruction that completes may write the state, each with the parts it names: `Effect s w t` says
that `t` is `s` after one of them, and that it wrote nothing outside `w`. -/
inductive Effect (s : State) : Set Part → State → Prop
  /-- registers, pixels and timers: data that no rule bounds -/
  | data {w : Set Part} {v : Vector Byte Config.numV} {d : Display} {dt st : Byte}
      (frame : UnchangedBut w s { s with v := v, display := d, dt := dt, st := st }) :
      Effect s w { s with v := v, display := d, dt := dt, st := st }
  /-- I, through its range check (10_state.md R23) -/
  | index {a : Nat} (ha : a ≤ 0xFFF) : Effect s {.i} { s with i := BitVec.ofNat 16 a }
  /-- PC, through its range check (10_state.md R24) -/
  | jump {a : Nat} (ha : a ≤ 0xFFF) : Effect s {.pc} { s with pc := BitVec.ofNat 16 a }
  /-- a return to an address popped off the stack (41_control_flow.md R120) -/
  | ret {j : Fin Config.stackDepth} (hj : j.val + 1 = s.sp.val) (ha : s.stack[j].toNat ≤ 0xFFF) :
      Effect s {.pc, .sp} { s with sp := ⟨j.val, by omega⟩, pc := BitVec.ofNat 16 s.stack[j].toNat }
  /-- a call: PC pushed, then the jump (41_control_flow.md R122) -/
  | call {nnn : Addr} {a : Nat} (hs : s.sp.val < Config.stackDepth) (ha : a ≤ 0xFFF) :
      Effect s (footprint s (.call nnn))
        { s with stack := s.stack.set s.sp.val s.pc hs, sp := ⟨s.sp.val + 1, by omega⟩, pc := BitVec.ofNat 16 a }
  /-- the wait for a key (46_input.md R228) -/
  | wait (x : Nibble) : Effect s {.waitX, .runState} { s with waitX := x, runState := .awaitingKey }
  /-- a block of bytes stored inside the memory array (20_memory.md R55, R56) -/
  | store {a : Nat} {bs : List Byte} (ha : a + bs.length ≤ Config.memSize) :
      Effect s (byteParts a bs.length) (s.writeBytes a bs)

/-- An effect writes nothing outside the parts it names. -/
theorem Effect.unchangedBut {w : Set Part} {s t : State} (h : Effect s w t) : UnchangedBut w s t := by
  cases h with
  | data frame => exact frame
  | index => exact s.unchangedBut_i _
  | jump => exact s.unchangedBut_pc _
  | store => exact s.unchangedBut_writeBytes _ _
  | ret | wait => intro p hp; cases p <;> first | rfl | simp at hp
  | call hs ha =>
    intro p hp
    cases p with
    | slot j =>
      have hj : s.sp.val ≠ j.val := fun e => hp (.inr (.inr ⟨j, e.symm, rfl⟩))
      exact Vector.getElem_set_ne hs j.isLt hj
    | pc => exact absurd (.inl rfl) hp
    | sp => exact absurd (.inr (.inl rfl)) hp
    | _ => rfl

/-! ### The effects of the shared operations -/

theorem Effect.refl (w : Set Part) (s : State) : Effect s w s := .data (.refl w s)

theorem Effect.setReg (s : State) (x : Nibble) (b : Byte) : Effect s {.reg x} (s.setReg x b) :=
  .data (s.unchangedBut_setReg x b)

/-- A flag operation changes registers alone. -/
theorem State.flagOp_eq (s : State) (x y : Nibble) (result : Byte → Byte → Byte) (flag : Byte → Byte → Bool) :
    s.flagOp x y result flag = { s with v := (s.flagOp x y result flag).v } := by
  simp only [State.flagOp]
  split <;> rfl

theorem Effect.flagOp (s : State) (x y : Nibble) (result : Byte → Byte → Byte) (flag : Byte → Byte → Bool) :
    Effect s {.reg x, .reg vf} (s.flagOp x y result flag) := by
  have frame := s.unchangedBut_flagOp x y result flag
  rw [State.flagOp_eq] at frame ⊢
  exact .data frame

theorem Effect.of_writePc {s t : State} {a : Nat} (h : s.writePc a = .ok t) : Effect s {.pc} t := by
  obtain ⟨ha, rfl⟩ := State.writePc_eq_ok h
  exact .jump ha

theorem Effect.of_writeI {s t : State} {a : Nat} (h : s.writeI a = .ok t) : Effect s {.i} t := by
  obtain ⟨ha, rfl⟩ := State.writeI_eq_ok h
  exact .index ha

theorem Effect.of_skip {s t : State} {c : Bool} (h : s.skip c = .ok t) : Effect s {.pc} t := by
  cases c with
  | false => cases h; exact .refl _ s
  | true => exact .of_writePc h

/-- A computation that answers `.ok` went through its first part and then through the rest. -/
theorem exists_ok_of_bind_eq_ok {ε α β : Type} {r : Except ε α} {f : α → Except ε β} {b : β}
    (h : (r >>= f) = .ok b) : ∃ a, r = .ok a ∧ f a = .ok b := by
  cases r with
  | ok a => exact ⟨a, rfl, h⟩
  | error e => cases h

/-- Registers written in a block from V0 up, V0 to Vx at most, are the only parts the write changes. -/
theorem Effect.setRegsFrom (s : State) (x : Nibble) {bs : List Byte} (hbs : bs.length = x.toNat + 1) :
    Effect s (regParts x) (s.setRegsFrom 0 bs) := by
  have hx := x.isLt
  have hreg : ∀ j : Nibble, .reg j ∉ regParts x → (s.setRegsFrom 0 bs).reg j = s.reg j := by
    intro j hj
    have hjx : ¬ j.toNat ≤ x.toNat := fun hle => hj ⟨j, hle, rfl⟩
    rw [State.reg_setRegsFrom s 0 bs j (by omega), dif_neg (by omega)]
  rw [State.setRegsFrom_eq] at hreg ⊢
  refine .data fun p hp => ?_
  cases p with
  | reg j => exact hreg j hp
  | _ => rfl

/-- A sprite drawn changes pixels and VF alone. -/
theorem Effect.draw (s : State) (d : Display) (b : Byte) :
    Effect s (pixelParts ∪ {.reg vf}) ({ s with display := d }.setReg vf b) := by
  refine .data fun p hp => ?_
  cases p with
  | pixel x y => exact absurd (.inl ⟨x, y, rfl⟩) hp
  | reg j => exact State.unchangedBut_setReg s vf b _ fun hin => hp (.inr hin)
  | _ => rfl

/-- Three bytes stored one after the other at rising addresses are one block store (43_index_memory.md R173). -/
theorem Effect.of_three_memWrites {s s₁ s₂ t : State} {a : Nat} {b₀ b₁ b₂ : Byte} (h₀ : s.memWrite a b₀ = .ok s₁)
    (h₁ : s₁.memWrite (a + 1) b₁ = .ok s₂) (h₂ : s₂.memWrite (a + 2) b₂ = .ok t) : Effect s (byteParts a 3) t := by
  obtain ⟨-, rfl⟩ := State.memWrite_eq_ok h₀
  obtain ⟨-, rfl⟩ := State.memWrite_eq_ok h₁
  obtain ⟨ha, rfl⟩ := State.memWrite_eq_ok h₂
  exact Effect.store (s := s) (a := a) (bs := [b₀, b₁, b₂])
    (by simp only [Config.memSize, List.length_cons, List.length_nil]; omega)

/-! ### What an instruction can do -/

/-- An instruction ended by `complete` took its error, or had the effect its pseudocode has when that answers a
state. -/
theorem complete_effect {i : Instr} {s t : State} {w : Set Part} {r : Except Error State}
    (hr : ∀ u, r = .ok u → Effect s w u) (h : complete i s r = .next t) :
    (∃ e, t = s.onError e (s.pc - 2) (encode i)) ∨ Effect s w t := by
  rcases complete_cases h with hok | ⟨e, -, ht⟩
  · exact .inr (hr t hok)
  · exact .inl ⟨e, ht⟩

/-- The same for an instruction that raises nothing. -/
theorem next_effect {i : Instr} {s t u : State} {w : Set Part} (hu : Effect s w u)
    (h : complete i s (.ok u) = .next t) :
    (∃ e, t = s.onError e (s.pc - 2) (encode i)) ∨ Effect s w t :=
  complete_effect (fun _ hok => by cases hok; exact hu) h

/-- An instruction that answers a next state took its error, or had one effect, inside its footprint. -/
theorem exec_effect {i : Instr} {s t : State} (h : exec i s = .next t) :
    (∃ e, t = s.onError e (s.pc - 2) (encode i)) ∨ Effect s (footprint s i) t := by
  cases i with
  | cls =>
    refine next_effect (.data fun p hp => ?_) h
    cases p with
    | pixel x y => exact absurd ⟨x, y, rfl⟩ hp
    | _ => rfl
  | ret =>
    refine complete_effect (fun u hu => ?_) h
    obtain ⟨⟨a, s₁⟩, hpop, hpc⟩ := exists_ok_of_bind_eq_ok hu
    obtain ⟨j, hj, rfl, rfl⟩ := State.pop_eq_ok hpop
    obtain ⟨ha, rfl⟩ := State.writePc_eq_ok hpc
    exact .ret hj ha
  | call nnn =>
    refine complete_effect (fun u hu => ?_) h
    obtain ⟨s₁, hpush, hpc⟩ := exists_ok_of_bind_eq_ok hu
    obtain ⟨hs, rfl⟩ := State.push_eq_ok hpush
    obtain ⟨ha, rfl⟩ := State.writePc_eq_ok hpc
    exact .call hs ha
  | jpAddr | jpV0 => exact complete_effect (fun _ => .of_writePc) h
  | seImm | sneImm | seReg | sneReg => exact complete_effect (fun _ => .of_skip) h
  | skp | sknp =>
    refine complete_effect (fun u hu => ?_) h
    obtain ⟨k, -, hskip⟩ := exists_ok_of_bind_eq_ok hu
    exact .of_skip hskip
  | ldImm | addImm | ldReg | orReg | andReg | xorReg | rnd | ldVDt => exact next_effect (.setReg s _ _) h
  | addReg | sub | shr | subn | shl => exact next_effect (.flagOp s _ _ _ _) h
  | ldI | addI | ldF => exact complete_effect (fun _ => .of_writeI) h
  | drw x y n =>
    refine complete_effect (fun u hu => ?_) h
    obtain ⟨rows, -, hdraw⟩ := exists_ok_of_bind_eq_ok hu
    cases hdraw
    exact .draw s _ _
  | ldVK x => exact next_effect (.wait x) h
  | ldDtV | ldStV =>
    refine next_effect (.data fun p hp => ?_) h
    cases p <;> first | rfl | exact absurd rfl hp
  | ldB x =>
    refine complete_effect (fun u hu => ?_) h
    obtain ⟨_, -, hstores⟩ := exists_ok_of_bind_eq_ok hu
    obtain ⟨_, h₀, hstores⟩ := exists_ok_of_bind_eq_ok hstores
    obtain ⟨_, h₁, h₂⟩ := exists_ok_of_bind_eq_ok hstores
    exact .of_three_memWrites h₀ h₁ h₂
  | ldMemV x =>
    refine complete_effect (fun u hu => ?_) h
    obtain ⟨hlen, rfl⟩ := State.storeBlock_eq_ok hu
    have hx := s.length_regBlock x
    simpa [footprint, hx] using Effect.store (s := s) (bs := s.regBlock x) (hlen.resolve_right (by omega))
  | ldVMem x =>
    refine complete_effect (fun u hu => ?_) h
    obtain ⟨bs, hload, hregs⟩ := exists_ok_of_bind_eq_ok hu
    cases hregs
    exact .setRegsFrom s x (by simp [State.loadBlock_eq_ok hload])

end Sys2Proof.Machine
end

section
/-! PROOFS. The frames of an instruction: its footprint (O17), and that an unlisted instruction leaves VF (O18). -/

namespace Sys2Proof.Machine

/-- An instruction either took its error or wrote inside its footprint (10_state.md R20 to R34). -/
theorem exec_frame {i : Instr} {s t : State} (h : exec i s = .next t) :
    UnchangedBut {.runState, .err, .pc} s t ∧ t.runState = .halted ∨ UnchangedBut (footprint s i) s t := by
  rcases exec_effect h with ⟨e, rfl⟩ | heff
  · obtain ⟨hhalted, -, -, hframe⟩ := s.haltedWith_onError e (s.pc - 2) (encode i)
    exact .inl ⟨hframe, hhalted⟩
  · exact .inr heff.unchangedBut

/-- A part that neither an error nor the instruction's own effect writes is left as it was. -/
theorem exec_same {i : Instr} {s t : State} {p : Part} (h : exec i s = .next t)
    (herr : p ∉ ({.runState, .err, .pc} : Set Part)) (hfoot : p ∉ footprint s i) : p.Same s t := by
  rcases exec_frame h with ⟨hframe, -⟩ | hframe
  · exact hframe p herr
  · exact hframe p hfoot

theorem config_notMem_footprint (s : State) (i : Instr) : .config ∉ footprint s i := by
  cases i <;> simp [footprint, pixelParts, byteParts, regParts]

theorem font_notMem_footprint (s : State) (i : Instr) : .font ∉ footprint s i := by
  cases i <;> simp [footprint, pixelParts, byteParts, regParts]

/-- Only CLS and DRW have pixels in their footprint. -/
theorem pixel_notMem_footprint (s : State) {i : Instr} (hcls : i ≠ .cls) (hdrw : ∀ x y n, i ≠ .drw x y n)
    (px py : Nat) : .pixel px py ∉ footprint s i := by
  cases i with
  | cls => exact absurd rfl hcls
  | drw x y n => exact absurd rfl (hdrw x y n)
  | _ => simp [footprint, byteParts, regParts]

/-- The block V0 to Vx reaches VF only if Vx is VF. -/
theorem eq_vf_of_vf_mem_regParts {x : Nibble} (h : .reg vf ∈ regParts x) : x = vf := by
  obtain ⟨j, hj, hp⟩ := h
  cases hp
  have hvf : vf.toNat = 15 := rfl
  exact BitVec.eq_of_toNat_eq (by omega)

/-- VF is in the footprint of the listed instructions alone (10_state.md R21). -/
theorem vf_notMem_footprint (s : State) {i : Instr} (h : ¬WritesVf i) : .reg vf ∉ footprint s i := by
  cases i with
  | addReg | sub | shr | subn | shl | drw => exact absurd trivial h
  | ldImm | addImm | ldReg | orReg | andReg | xorReg | rnd | ldVDt => exact fun hin => h (Part.reg.inj hin).symm
  | ldVMem x => exact fun hin => h (eq_vf_of_vf_mem_regParts hin)
  | _ => simp [footprint, pixelParts, byteParts]

/-- Settles O17: an instruction takes its error or has one effect, and each effect names the parts it writes. -/
theorem noInstructionWritesOutsideItsFootprint : Obligations.NoInstructionWritesOutsideItsFootprint :=
  fun _ _ _ _ h => exec_frame h

/-- Settles O18: neither an error nor the footprint of an unlisted instruction reaches VF. -/
theorem vfIsWrittenOnlyByTheListedInstructions : Obligations.VfIsWrittenOnlyByTheListedInstructions :=
  fun _ s _ h hvf => exec_same h (by simp) (vf_notMem_footprint s hvf)

end Sys2Proof.Machine
end

section
/-! PROOFS. CONFIG and FONT: what a cycle and each host operation can do, and that RESET alone writes CONFIG (O19). -/

namespace Sys2Proof.Machine

theorem exec_config_font {i : Instr} {s t : State} (h : exec i s = .next t) :
    t.config = s.config ∧ t.font = s.font :=
  ⟨exec_same (p := .config) h (by simp) (config_notMem_footprint s i),
    exec_same (p := .font) h (by simp) (font_notMem_footprint s i)⟩

theorem cycle_config_font {s t : State} (h : cycle s = .next t) : t.config = s.config ∧ t.font = s.font := by
  rcases cycle_cases s with ⟨i, -, -, hexec⟩ | ⟨e, w, herr, -⟩
  · rw [hexec] at h
    simpa using exec_config_font h
  · rw [herr] at h
    cases h
    exact ⟨rfl, rfl⟩

/-- A pending key wait ends with the lowest new key, if there is one (46_input.md R229). -/
theorem State.keyResume_cases (s : State) (edges : Word) :
    s.keyResume edges = s ∨ ∃ b, s.keyResume edges = { s.setReg s.waitX b with runState := .running } := by
  unfold State.keyResume
  split
  · exact .inl rfl
  · exact .inr ⟨_, rfl⟩

/-- A STEP runs a cycle, tests for a new key, or only latches its inputs (40_fetch_cycle.md R100). -/
theorem hostStep_cases {s t : State} {k : Word} {r : Byte} (h : hostStep k r s = .next t) :
    (s.runState = .running ∧ cycle (s.latched k r) = .next t) ∨
    (s.runState ≠ .running ∧ t = s.latched k r) ∨
    (s.runState = .awaitingKey ∧ ∃ b, t = { (s.latched k r).setReg s.waitX b with runState := .running }) := by
  cases hrun : s.runState with
  | running => exact .inl ⟨rfl, hostStep_running s k r hrun ▸ h⟩
  | halted =>
    rw [hostStep_halted s k r hrun] at h
    cases h
    exact .inr (.inl ⟨by simp, rfl⟩)
  | awaitingKey =>
    rw [hostStep_awaitingKey s k r hrun] at h
    cases h
    rcases (s.latched k r).keyResume_cases (k &&& ~~~s.keys) with heq | ⟨b, heq⟩
    · exact .inr (.inl ⟨by simp, heq⟩)
    · exact .inr (.inr ⟨rfl, b, heq⟩)

theorem hostStep_config_font {s t : State} {k : Word} {r : Byte} (h : hostStep k r s = .next t) :
    t.config = s.config ∧ t.font = s.font := by
  rcases hostStep_cases h with ⟨-, hcycle⟩ | ⟨-, rfl⟩ | ⟨-, b, rfl⟩
  · simpa using cycle_config_font hcycle
  · exact ⟨rfl, rfl⟩
  · exact ⟨rfl, rfl⟩

/-- LOAD refuses the image, writing LOAD_STATUS alone, or stores it at ROM_BASE (70_reset_and_hazards.md R274). -/
theorem State.hostLoad_cases (s : State) (rom : List Byte) :
    s.hostLoad rom = { s with loadStatus := .romTooLarge } ∨
    (Config.romBase + rom.length ≤ Config.memSize ∧ s.hostLoad rom =
      State.writeBytes { s with pc := BitVec.ofNat 16 Config.romBase, loadStatus := .success } Config.romBase rom) := by
  unfold State.hostLoad
  split
  · exact .inl rfl
  · next hfits => exact .inr ⟨Nat.not_lt.mp hfits, rfl⟩

/-- Every host operation keeps FONT, and CONFIG but for RESET, which latches its input (10_state.md R36). -/
theorem hostOp_config_font {op : HostOp} {s t : State} (h : hostOp op s = .next t) :
    t.font = s.font ∧ (t.config = s.config ∨ ∃ cfg, op = .reset cfg ∧ t.config = cfg) := by
  cases op with
  | reset cfg => cases h; exact ⟨rfl, .inr ⟨cfg, rfl, rfl⟩⟩
  | load rom =>
    cases h
    rcases s.hostLoad_cases rom with heq | ⟨-, heq⟩ <;> rw [heq] <;> exact ⟨rfl, .inl rfl⟩
  | step k r =>
    obtain ⟨hconfig, hfont⟩ := hostStep_config_font h
    exact ⟨hfont, .inl hconfig⟩
  | tick => cases h; exact ⟨rfl, .inl rfl⟩

/-- A step is the oldest pending host operation, or a STEP with free inputs where none is pending. -/
theorem step_cases {s t : State} (h : step s = .next t) :
    (∃ op rest, s.pending = op :: rest ∧ hostOp op { s with pending := rest } = .next t) ∨
    (∃ k r, s.pending = [] ∧ hostStep k r { s with draws := s.draws + 1 } = .next t) := by
  simp only [step, hostNext] at h
  split at h
  · next op rest hpending => exact .inl ⟨op, rest, hpending, h⟩
  · next hpending => exact .inr ⟨_, _, hpending, h⟩

/-- Settles O19: RESET is the one operation whose effect names CONFIG, and none names FONT. -/
theorem configChangesOnlyAtReset : Obligations.ConfigChangesOnlyAtReset := by
  intro s t h
  rcases step_cases h with ⟨op, rest, hpending, hop⟩ | ⟨k, r, -, hstep⟩
  · obtain ⟨hfont, hconfig | ⟨cfg, rfl, hconfig⟩⟩ := hostOp_config_font hop
    · exact ⟨hfont, .inl hconfig⟩
    · exact ⟨hfont, .inr ⟨cfg, rest, hpending, hconfig⟩⟩
  · obtain ⟨hconfig, hfont⟩ := hostStep_config_font hstep
    exact ⟨hfont, .inl hconfig⟩

end Sys2Proof.Machine
end

section
/-! PROOFS. The display: CLS and DRW alone among the instructions change it, and RESET (O20). -/

namespace Sys2Proof.Machine

/-- Two displays with the same pixels are the same. -/
theorem Display.ext_pixel {d d' : Display} (h : ∀ x y, d.pixel x y = d'.pixel x y) : d = d' := by
  refine Vector.ext fun y hy => BitVec.eq_of_getLsbD_eq fun x _ => ?_
  simpa [Display.pixel, hy] using h x y

theorem exec_display {i : Instr} {s t : State} (h : exec i s = .next t) (hcls : i ≠ .cls)
    (hdrw : ∀ x y n, i ≠ .drw x y n) : t.display = s.display :=
  Display.ext_pixel fun px py =>
    exec_same (p := .pixel px py) h (by simp) (pixel_notMem_footprint s hcls hdrw px py)

/-- A STEP that runs no instruction leaves the display as it was. -/
theorem hostStep_display {s t : State} {k : Word} {r : Byte} (h : hostStep k r s = .next t)
    (hrun : s.runState ≠ .running) : t.display = s.display := by
  rcases hostStep_cases h with ⟨hrunning, -⟩ | ⟨-, rfl⟩ | ⟨-, b, rfl⟩
  · exact absurd hrunning hrun
  · rfl
  · rfl

theorem State.hostLoad_display (s : State) (rom : List Byte) : (s.hostLoad rom).display = s.display := by
  rcases s.hostLoad_cases rom with heq | ⟨-, heq⟩ <;> simp [heq]

/-- Settles O20: pixels lie in the footprint of CLS and DRW alone, and no host operation but RESET and a STEP in
RUNNING touches them. -/
theorem displayChangesOnlyByClearDrawAndReset : Obligations.DisplayChangesOnlyByClearDrawAndReset := by
  refine ⟨fun i s t h hcls hdrw => exec_display h hcls hdrw, fun op s t h hreset hstep => ?_⟩
  cases op with
  | reset cfg => exact absurd rfl (hreset cfg)
  | load rom => cases h; exact s.hostLoad_display rom
  | step k r => exact hostStep_display h (hstep k r rfl)
  | tick => cases h; rfl

end Sys2Proof.Machine
end

section
/-! PROOFS. The invariant: RESET meets it, and every effect, every error and every host operation keeps it (O15). -/

namespace Sys2Proof.Machine

/-- RESET leaves a state of the invariant. -/
theorem State.inv_resetWith (font : Font) (cfg : BitVec 4) : (State.resetWith font cfg).Inv where
  pc_le := by simp [State.resetWith]
  i_le := by simp [State.resetWith]
  slot_le := by simp [State.resetWith]
  mem_wf := Memory.wf_nil font
  halted_iff := by simp [State.resetWith]
  no_record := by simp [State.resetWith]
  addr_zero := by simp [State.resetWith]

/-- An error is never recorded as code 0. -/
theorem Error.code_ne_none (e : Error) : e.code ≠ .none := by
  cases e <;> simp [Error.code]

/-- ERR_ADDR is written 0 for every code but ADDRESS_OUT_OF_RANGE (60_exceptions.md R241). -/
theorem Error.addr_eq_zero {e : Error} (h : e.code ≠ .addressOutOfRange) : e.addr = 0 := by
  cases e with
  | addressOutOfRange a => exact absurd rfl h
  | _ => rfl

/-- Taking an error keeps the invariant: it halts, and its record is whole. -/
theorem State.Inv.onError {s : State} (h : s.Inv) (e : Error) {pc0 : Word} (w : Word) (hpc : pc0.toNat ≤ 0xFFF) :
    (s.onError e pc0 w).Inv :=
  { h with
    pc_le := hpc
    halted_iff := iff_of_true rfl e.code_ne_none
    no_record := fun hnone => absurd hnone e.code_ne_none
    addr_zero := e.addr_eq_zero }

/-- The invariant does not depend on how an unhalted CORE waits. -/
theorem State.Inv.halted_iff_of_ne_halted {s : State} (h : s.Inv) (hs : s.runState ≠ .halted) {r : RunState}
    (hr : r ≠ .halted) : r = .halted ↔ s.err.code ≠ .none :=
  iff_of_false hr fun hcode => hs (h.halted_iff.mpr hcode)

theorem toNat_ofNat_le {a : Nat} (h : a ≤ 0xFFF) : (BitVec.ofNat 16 a).toNat ≤ 0xFFF :=
  (BitVec.toNat_ofNat a 16).trans_le ((Nat.mod_le a _).trans h)

/-- The one effect that fills a stack slot pushes a PC value. -/
theorem Effect.inv {s t : State} {w : Set Part} (heff : Effect s w t) (h : s.Inv) (hrun : s.runState ≠ .halted) :
    t.Inv := by
  cases heff with
  | data => exact { h with }
  | index ha => exact { h with i_le := toNat_ofNat_le ha }
  | jump ha | ret _ ha => exact { h with pc_le := toNat_ofNat_le ha }
  | call hs ha =>
    refine { h with pc_le := toNat_ofNat_le ha, slot_le := fun j => ?_ }
    simp only [Fin.getElem_fin, Vector.getElem_set]
    split
    · exact h.pc_le
    · exact h.slot_le j
  | wait => exact { h with halted_iff := h.halted_iff_of_ne_halted hrun (by simp) }
  | store ha => exact { h with mem_wf := Memory.wf_writeBytes _ _ _ _ ha h.mem_wf }

theorem exec_inv {i : Instr} {s t : State} (h : s.Inv) (hrun : s.runState = .running) (hpc : 2 ≤ s.pc.toNat)
    (hexec : exec i s = .next t) : t.Inv := by
  rcases exec_effect hexec with ⟨e, rfl⟩ | heff
  · have hle := h.pc_le
    exact h.onError e _ (by bv_omega)
  · exact heff.inv h (by simp [hrun])

theorem cycle_inv {s t : State} (h : s.Inv) (hrun : s.runState = .running) (hcycle : cycle s = .next t) : t.Inv := by
  rcases cycle_cases s with ⟨i, hpc, -, hexec⟩ | ⟨e, w, herr, -⟩
  · have hpc2 : (s.pc + 2).toNat = s.pc.toNat + 2 := by bv_omega
    have hfetched : State.Inv { s with pc := s.pc + 2 } := { h with pc_le := by simp only [hpc2]; omega }
    exact exec_inv hfetched hrun (by simp only [hpc2]; omega) (hexec ▸ hcycle)
  · rw [herr] at hcycle
    cases hcycle
    exact h.onError e w h.pc_le

theorem hostStep_inv {s t : State} {k : Word} {r : Byte} (h : s.Inv) (hstep : hostStep k r s = .next t) : t.Inv := by
  have hlatched : (s.latched k r).Inv := { h with }
  rcases hostStep_cases hstep with ⟨hrun, hcycle⟩ | ⟨-, rfl⟩ | ⟨hawait, b, rfl⟩
  · exact cycle_inv hlatched hrun hcycle
  · exact hlatched
  · exact { hlatched with halted_iff := h.halted_iff_of_ne_halted (by simp [hawait]) (by simp) }

theorem hostOp_inv {op : HostOp} {s t : State} (h : s.Inv) (hop : hostOp op s = .next t) : t.Inv := by
  cases op with
  | reset cfg => cases hop; exact { State.inv_resetWith s.font cfg with }
  | load rom =>
    cases hop
    rcases s.hostLoad_cases rom with heq | ⟨hfits, heq⟩ <;> rw [heq]
    · exact { h with }
    · exact { h with pc_le := toNat_ofNat_le (by decide), mem_wf := Memory.wf_writeBytes _ _ _ _ hfits h.mem_wf }
  | step k r => exact hostStep_inv h hop
  | tick => cases hop; exact { h with }

/-- Settles O15: every host operation keeps the invariant, a running STEP because each effect of an instruction does;
the list of operations and its counter are no part of it. -/
theorem everyStepKeepsTheInvariant : Obligations.EveryStepKeepsTheInvariant := by
  intro s t h hstep
  rcases step_cases hstep with ⟨op, rest, -, hop⟩ | ⟨k, r, -, hfree⟩
  · have hrest : State.Inv { s with pending := rest } := { h with }
    exact hostOp_inv hrest hop
  · have hcounted : State.Inv { s with draws := s.draws + 1 } := { h with }
    exact hostStep_inv hcounted hfree

end Sys2Proof.Machine
end

section
/-! PROOFS. A skip taken at the odd address 0xFFD (O35). -/

namespace Sys2Proof.Machine

/-- A skip taken from PC 0xFFF computes 0x1001, outside the address space. -/
theorem skipLeavesTheTop_of_exec {i : Instr} {s : State} {c : Bool} (hc : c = true)
    (hexec : exec i s = complete i s (s.skip c)) : SkipLeavesTheTop i s := by
  intro hpc
  have hpc0 : s.pc - 2 = 0xFFD := by bv_omega
  rw [hexec, hc, State.skip_true, State.writePc_error s (by omega), hpc, complete_error, hpc0]
  exact ⟨_, rfl, s.haltedWith_onError _ _ _⟩

theorem keyIndex_ok {v : Byte} (h : v.toNat ≤ 0x0F) : keyIndex v = .ok v.toNat := by
  simp [keyIndex, Nat.not_lt.mpr h]

theorem exec_skp (s : State) {x : Nibble} (h : (s.reg x).toNat ≤ 0x0F) :
    exec (.skp x) s = complete (.skp x) s (s.skip (s.keys.getLsbD (s.reg x).toNat)) := by
  simp only [exec, execSkp, keyIndex_ok h]
  rfl

theorem exec_sknp (s : State) {x : Nibble} (h : (s.reg x).toNat ≤ 0x0F) :
    exec (.sknp x) s = complete (.sknp x) s (s.skip (!s.keys.getLsbD (s.reg x).toNat)) := by
  simp only [exec, execSknp, keyIndex_ok h]
  rfl

/-- Settles O35: each of the six is a skip on its condition, which leaves the address space from 0xFFF. -/
theorem skipTakenAtTheOddTopRaises : Obligations.SkipTakenAtTheOddTopRaises := by
  intro s x y kk
  refine ⟨fun h => ?_, fun h => ?_, fun h => ?_, fun h => ?_, fun hkey => ⟨fun h => ?_, fun h => ?_⟩⟩
  · exact skipLeavesTheTop_of_exec (beq_iff_eq.mpr h) rfl
  · exact skipLeavesTheTop_of_exec (bne_iff_ne.mpr h) rfl
  · exact skipLeavesTheTop_of_exec (beq_iff_eq.mpr h) rfl
  · exact skipLeavesTheTop_of_exec (bne_iff_ne.mpr h) rfl
  · exact skipLeavesTheTop_of_exec h (exec_skp s hkey)
  · exact skipLeavesTheTop_of_exec (by simp [h]) (exec_sknp s hkey)

end Sys2Proof.Machine
end

section
/-! PROOFS. The memory primitives read back what they wrote and check their bounds (O28), and a STEP runs an
instruction that the one before it stored (O29). -/

namespace Sys2Proof.Machine

/-! ### MemRead and MemWrite -/

theorem byteParts_one (a : Nat) : byteParts a 1 = {.byte a} := by
  ext p
  simp [byteParts]

/-- Writing one byte of memory changes that byte alone. -/
theorem State.unchangedBut_writeByte (s : State) (a : Nat) (b : Byte) :
    UnchangedBut {.byte a} s (s.writeBytes a [b]) :=
  byteParts_one a ▸ s.unchangedBut_writeBytes a [b]

theorem State.readByte_writeByte (s : State) (a a' : Nat) (b : Byte) :
    (s.writeBytes a [b]).readByte a' = if a' = a then b else s.readByte a' :=
  Memory.read_write s.font s.mem a a' b

theorem State.memRead_writeByte (s : State) {a a' : Nat} (b : Byte) (ha' : a' ≤ 0xFFF) :
    (s.writeBytes a [b]).memRead a' = if a' = a then .ok b else s.memRead a' := by
  rw [State.memRead_ok _ ha', State.memRead_ok s ha', State.readByte_writeByte]
  split <;> rfl

/-- Settles O28: inside the address space MemWrite stores one byte, and memory reads it back; above, both raise. -/
theorem memoryPrimitivesReadBackAndCheckBounds : Obligations.MemoryPrimitivesReadBackAndCheckBounds := by
  intro s a b
  refine ⟨fun ha => ⟨s.memRead_ok ha, s.writeBytes a [b], s.memWrite_ok b ha, ?_, ?_⟩, fun ha => ?_⟩
  · exact fun a' ha' => s.memRead_writeByte b ha'
  · exact s.unchangedBut_writeByte a b
  · exact ⟨s.memWrite_error b ha, s.memRead_error ha⟩

/-! ### Self-modifying code -/

/-- A running STEP whose fetched word decodes is that instruction, run on the state fetch leaves. -/
theorem hostStep_decoded (s : State) (k : Word) (r : Byte) {i : Instr} (hrun : s.runState = .running)
    (hpc : s.pc.toNat ≤ 0xFFD) (hdec : decodeWord (s.wordAt s.pc.toNat) = .ok i) :
    hostStep k r s = exec i (s.fetched k r) := by
  rw [hostStep_running s k r hrun]
  exact cycle_decoded (s.latched k r) hpc hdec

/-- Fx55 inside the address space stores the block V0..Vx at I (43_index_memory.md R174). -/
theorem exec_ldMemV (s : State) {x : Nibble} (h : s.i.toNat + x.toNat ≤ 0xFFF) :
    exec (.ldMemV x) s = .next (s.writeBytes s.i.toNat (s.regBlock x)) := by
  have hfits : s.i.toNat + (s.regBlock x).length ≤ Config.memSize := by
    rw [State.length_regBlock, Config.memSize]
    omega
  simp only [exec, execLdMemV, s.storeBlock_ok hfits, complete_ok]

/-- After the block V0..Vx is stored, the j-th address of the block holds V[j]. -/
theorem State.readByte_writeBytes_regBlock (s : State) (a : Nat) {x : Nibble} {j : Nat} (hj : j ≤ x.toNat) :
    (s.writeBytes a (s.regBlock x)).readByte (a + j) = s.reg (BitVec.ofNat 4 j) := by
  have hblock : a ≤ a + j ∧ a + j < a + (s.regBlock x).length := by
    rw [State.length_regBlock]
    omega
  rw [State.readByte_writeBytes, dif_pos hblock, State.getElem_regBlock, Nat.add_sub_cancel_left]

/-- A block V0..Vx with x at least 1 starts with the word of V0 and V1 (20_memory.md R52). -/
theorem State.wordAt_writeBytes_regBlock (s : State) (a : Nat) {x : Nibble} (hx : 1 ≤ x.toNat) :
    (s.writeBytes a (s.regBlock x)).wordAt a = bytesToWord (s.reg 0) (s.reg 1) :=
  congrArg₂ bytesToWord (s.readByte_writeBytes_regBlock a (Nat.zero_le _)) (s.readByte_writeBytes_regBlock a hx)

/-- Settles O29: the store leaves PC at the block's first two bytes, and fetch reads memory as it stands. -/
theorem storedInstructionIsFetchedNext : Obligations.StoredInstructionIsFetchedNext := by
  intro s x k r i hrun hpc hi hx hfits hdec
  refine ⟨s.writeBytes s.i.toNat (s.regBlock x), exec_ldMemV s hfits, ?_⟩
  refine hostStep_decoded _ k r hrun hpc ?_
  rw [State.writeBytes_pc, ← hi, State.wordAt_writeBytes_regBlock s _ hx]
  exact hdec

end Sys2Proof.Machine
end

section
/-! PROOFS. The decoder inverts the encoder on every instruction (O1), and the encoder the decoder on every word that
decodes (O2); sample words (O5). -/

namespace Sys2Proof

/-! ### The decoder on an encoded instruction -/

theorem decodeWord_encode (i : Instr) : decodeWord (encode i) = .ok i := by
  cases i with
  | cls | ret => rfl
  | jpAddr | call | ldI | jpV0 => simp [encode, decodeWord]
  | seImm | sneImm | ldImm | addImm | rnd => simp [encode, decodeWord]
  | seReg | sneReg | drw => simp [encode, decodeWord]
  | ldReg | orReg | andReg | xorReg | addReg | sub | shr | subn | shl => simp [encode, decodeWord, decodeAlu]
  | skp | sknp => simp [encode, decodeWord, decodeKey]
  | ldVDt | ldVK | ldDtV | ldStV | addI | ldF | ldB | ldMemV | ldVMem => simp [encode, decodeWord, decodeMisc]

/-- The decoder reads one word from the two bytes that memory holds for it (20_memory.md R52). -/
theorem decodeBytes_wordToBytes (w : Word) (rest : List Byte) :
    decodeBytes (wordToBytes w ++ rest) = (decodeWord w).map fun i => (i, rest) :=
  congrArg (fun v => (decodeWord v).map fun i => (i, rest)) (bytesToWord_of_word w)

/-- Settles O1: the bytes of the word are put together again, and the word decodes by its own shape. -/
theorem encodedInstructionDecodesToItself : Obligations.EncodedInstructionDecodesToItself := by
  intro i rest
  rw [decodeBytes_wordToBytes, decodeWord_encode]
  rfl

/-! ### The encoder on a decoded word -/

theorem encAddr_of_fields {w : Word} {op : Nibble} (hop : Word.opField w = op) :
    encAddr op (Word.nnnField w) = w :=
  hop ▸ encAddr_fields w

theorem encRegImm_of_fields {w : Word} {op : Nibble} {kk : Byte} (hop : Word.opField w = op)
    (hkk : Word.kkField w = kk) : encRegImm op (Word.xField w) kk = w :=
  hop ▸ hkk ▸ encRegImm_fields w

theorem encRegReg_of_fields {w : Word} {op low : Nibble} (hop : Word.opField w = op)
    (hn : Word.nField w = low) : encRegReg op (Word.xField w) (Word.yField w) low = w :=
  hop ▸ hn ▸ encRegReg_fields w

theorem encode_of_decodeSystem {w : Word} {i : Instr} (h : decodeSystem w = .ok i) : encode i = w := by
  unfold decodeSystem at h
  split at h <;> cases h <;> rfl

theorem encode_of_decodeAlu {w : Word} {i : Instr} (hop : Word.opField w = 0x8) (h : decodeAlu w = .ok i) :
    encode i = w := by
  unfold decodeAlu at h
  split at h <;> cases h
  all_goals exact encRegReg_of_fields hop ‹_›

theorem encode_of_decodeKey {w : Word} {i : Instr} (hop : Word.opField w = 0xE) (h : decodeKey w = .ok i) :
    encode i = w := by
  unfold decodeKey at h
  split at h <;> cases h
  all_goals exact encRegImm_of_fields hop ‹_›

theorem encode_of_decodeMisc {w : Word} {i : Instr} (hop : Word.opField w = 0xF) (h : decodeMisc w = .ok i) :
    encode i = w := by
  unfold decodeMisc at h
  split at h <;> cases h
  all_goals exact encRegImm_of_fields hop ‹_›

/-- The decoder's last arm, which the fifteen others leave, is family 0xF. -/
theorem nibble_eq_15 {n : Nibble} : n ≠ 0 → n ≠ 1 → n ≠ 2 → n ≠ 3 → n ≠ 4 → n ≠ 5 → n ≠ 6 → n ≠ 7 → n ≠ 8 →
    n ≠ 9 → n ≠ 10 → n ≠ 11 → n ≠ 12 → n ≠ 13 → n ≠ 14 → n = 15 := by
  bv_omega

/-- Each family writes its shape with its own selectors (30_encoding.md R76); the k-th arm is family k - 1. -/
theorem encode_of_decodeWord {w : Word} {i : Instr} (h : decodeWord w = .ok i) : encode i = w := by
  unfold decodeWord at h
  split at h
  case h_1 => exact encode_of_decodeSystem h
  case h_2 hop | h_3 hop | h_11 hop | h_12 hop => cases h; exact encAddr_of_fields hop
  case h_4 hop | h_5 hop | h_7 hop | h_8 hop | h_13 hop => cases h; exact encRegImm_of_fields hop rfl
  case h_6 hop | h_10 hop =>
    split at h <;> cases h
    exact encRegReg_of_fields hop ‹_›
  case h_14 hop => cases h; exact encRegReg_of_fields hop rfl
  case h_9 hop => exact encode_of_decodeAlu hop h
  case h_15 hop => exact encode_of_decodeKey hop h
  case h_16 =>
    have hop : Word.opField w = 0xF := by apply nibble_eq_15 <;> assumption
    exact encode_of_decodeMisc hop h

/-- Settles O2: each arm of the decoder fixes the fields the encoder writes, and copies the others. -/
theorem decodedWordEncodesBack : Obligations.DecodedWordEncodesBack :=
  fun _ _ => encode_of_decodeWord

/-- Settles O5: the decoder evaluates on each of the thirteen words. -/
theorem sampleWordsDecodeAsTheSpecWritesThem : Obligations.SampleWordsDecodeAsTheSpecWritesThem :=
  ⟨rfl, rfl, rfl, rfl, rfl, rfl, rfl, rfl, rfl, rfl, rfl, rfl, rfl⟩

end Sys2Proof
end

section
/-! PROOFS. The words that decode, by arithmetic on the word's number (O3). -/

namespace Sys2Proof

/-! ### The words each family accepts -/

theorem decodeSystem_isOk_iff (w : Word) :
    (∃ i, decodeSystem w = .ok i) ↔ w.toNat = 0x00E0 ∨ w.toNat = 0x00EE := by
  unfold decodeSystem
  split <;> simp_all [← BitVec.toNat_inj]

/-- Families 0x5 and 0x9 accept the sub-selector 0 alone (30_encoding.md R80). -/
theorem ite_nField_isOk_iff (w : Word) (i : Instr) (e : DecodeError) :
    (∃ j, (if Word.nField w = 0 then Except.ok i else .error e) = .ok j) ↔ w.toNat % 16 = 0 := by
  rw [← toNat_nField]
  split <;> simp_all [← BitVec.toNat_inj]

theorem decodeAlu_isOk_iff (w : Word) :
    (∃ i, decodeAlu w = .ok i) ↔ w.toNat % 16 ∈ [0x0, 0x1, 0x2, 0x3, 0x4, 0x5, 0x6, 0x7, 0xE] := by
  rw [← toNat_nField]
  unfold decodeAlu
  split <;> simp_all [← BitVec.toNat_inj]

theorem decodeKey_isOk_iff (w : Word) : (∃ i, decodeKey w = .ok i) ↔ w.toNat % 256 ∈ [0x9E, 0xA1] := by
  rw [← toNat_kkField]
  unfold decodeKey
  split <;> simp_all [← BitVec.toNat_inj]

theorem decodeMisc_isOk_iff (w : Word) :
    (∃ i, decodeMisc w = .ok i) ↔
      w.toNat % 256 ∈ [0x07, 0x0A, 0x15, 0x18, 0x1E, 0x29, 0x33, 0x55, 0x65] := by
  rw [← toNat_kkField]
  unfold decodeMisc
  split <;> simp_all [← BitVec.toNat_inj]

/-- Settles O3: the top nibble selects the family, and the family accepts every word or those of its sub-selectors. -/
theorem validWordsAreExactlyTheListedPatterns : Obligations.ValidWordsAreExactlyTheListedPatterns := by
  intro w
  have hfam := toNat_opField w
  have hlow : w.toNat / 4096 ≠ 0 → w.toNat ≠ 0x00E0 ∧ w.toNat ≠ 0x00EE := by omega
  unfold decodeWord
  split
  case h_1 hop => simp [decodeSystem_isOk_iff, ← hfam, hop]
  case h_6 hop | h_10 hop =>
    rw [ite_nField_isOk_iff]
    simp [hlow, ← hfam, hop]
  case h_9 hop => simp [decodeAlu_isOk_iff, hlow, ← hfam, hop]
  case h_15 hop => simp [decodeKey_isOk_iff, hlow, ← hfam, hop]
  case h_16 =>
    have hop : Word.opField w = 0xF := by apply nibble_eq_15 <;> assumption
    simp [decodeMisc_isOk_iff, hlow, ← hfam, hop]
  case h_2 hop | h_3 hop | h_4 hop | h_5 hop | h_7 hop | h_8 hop | h_11 hop | h_12 hop | h_13 hop | h_14 hop =>
    exact iff_of_true ⟨_, rfl⟩ (.inr (.inr (.inl (by simp [← hfam, hop]))))

end Sys2Proof
end

section
/-! PROOFS. The decoder against the opcode map (O4). -/

namespace Sys2Proof.Laws.Encoding

/-- The lemmas of the constructors, put together. -/
theorem of_instr : ∀ i, Statement i
  | .cls => cls | .ret => ret | .jpAddr nnn => jpAddr nnn | .call nnn => call nnn
  | .seImm x kk => seImm x kk | .sneImm x kk => sneImm x kk | .seReg x y => seReg x y
  | .ldImm x kk => ldImm x kk | .addImm x kk => addImm x kk
  | .ldReg x y => ldReg x y | .orReg x y => orReg x y | .andReg x y => andReg x y | .xorReg x y => xorReg x y
  | .addReg x y => addReg x y | .sub x y => sub x y | .shr x y => shr x y | .subn x y => subn x y
  | .shl x y => shl x y | .sneReg x y => sneReg x y
  | .ldI nnn => ldI nnn | .jpV0 nnn => jpV0 nnn | .rnd x kk => rnd x kk | .drw x y n => drw x y n
  | .skp x => skp x | .sknp x => sknp x
  | .ldVDt x => ldVDt x | .ldVK x => ldVK x | .ldDtV x => ldDtV x | .ldStV x => ldStV x | .addI x => addI x
  | .ldF x => ldF x | .ldB x => ldB x | .ldMemV x => ldMemV x | .ldVMem x => ldVMem x

end Sys2Proof.Laws.Encoding

namespace Sys2Proof

/-! ### No two rows admit one word -/

theorem OpcodeRow.admits_iff {r : OpcodeRow} {w : Word} : r.admits w = true ↔ w &&& r.mask = r.pattern :=
  beq_iff_eq

/-- Two rows whose patterns agree wherever both masks look are one row. -/
theorem opcodeRows_eq_of_patterns_agree :
    ∀ r ∈ opcodeRows, ∀ r' ∈ opcodeRows, r.pattern &&& r'.mask = r'.pattern &&& r.mask → r = r' := by
  decide

/-- No two rows of the opcode map admit one word (30_encoding.md R84). -/
theorem opcodeRows_eq_of_admits {r r' : OpcodeRow} {w : Word} (hr : r ∈ opcodeRows) (hr' : r' ∈ opcodeRows)
    (h : r.admits w = true) (h' : r'.admits w = true) : r = r' := by
  rw [OpcodeRow.admits_iff] at h h'
  refine opcodeRows_eq_of_patterns_agree r hr r' hr' ?_
  rw [← h, ← h', BitVec.and_assoc, BitVec.and_assoc, BitVec.and_comm r.mask]

/-! ### The decoder takes every word that a row admits -/

/-- An instruction's row fixes the selector bits of its encoding. -/
theorem and_mask_eq_of_admits {i : Instr} {w : Word} (h : i.row.admits w = true) :
    w &&& i.row.mask = encode i &&& i.row.mask := by
  obtain ⟨-, hi⟩ := Laws.Encoding.of_instr i
  rw [OpcodeRow.admits_iff.mp h, OpcodeRow.admits_iff.mp hi]

/-- Words that agree under a mask agree on each field that the mask covers. -/
theorem extractLsb'_eq_of_and_eq {w w' m : Word} {start len : Nat} (h : w &&& m = w' &&& m)
    (hm : m.extractLsb' start len = BitVec.allOnes len) : w.extractLsb' start len = w'.extractLsb' start len := by
  have hfield := congrArg (BitVec.extractLsb' start len) h
  rwa [BitVec.extractLsb'_and, BitVec.extractLsb'_and, hm, BitVec.and_allOnes, BitVec.and_allOnes] at hfield

/-- Every row covers the family selector. -/
theorem opField_of_admits {i : Instr} {w : Word} (h : i.row.admits w = true) :
    Word.opField w = Word.opField (encode i) :=
  extractLsb'_eq_of_and_eq (and_mask_eq_of_admits h) (by cases i <;> simp [Instr.row])

theorem nField_of_admits {i : Instr} {w : Word} (h : i.row.admits w = true) (hm : i.row.mask = 0xF00F) :
    Word.nField w = Word.nField (encode i) :=
  extractLsb'_eq_of_and_eq (and_mask_eq_of_admits h) (by rw [hm]; rfl)

theorem kkField_of_admits {i : Instr} {w : Word} (h : i.row.admits w = true) (hm : i.row.mask = 0xF0FF) :
    Word.kkField w = Word.kkField (encode i) :=
  extractLsb'_eq_of_and_eq (and_mask_eq_of_admits h) (by rw [hm]; rfl)

theorem eq_encode_of_admits {i : Instr} {w : Word} (h : i.row.admits w = true) (hm : i.row.mask = 0xFFFF) :
    w = encode i := by
  have hw := and_mask_eq_of_admits h
  rw [hm] at hw
  exact BitVec.and_allOnes.symm.trans (hw.trans BitVec.and_allOnes)

/-- The fields that a row fixes are those that make a word valid. -/
theorem exists_decodeWord_of_row_admits {i : Instr} {w : Word} (h : i.row.admits w = true) :
    ∃ j, decodeWord w = .ok j := by
  rw [validWordsAreExactlyTheListedPatterns w, ← toNat_opField, ← toNat_nField, ← toNat_kkField,
    opField_of_admits h]
  cases i with
  | cls | ret => simp [eq_encode_of_admits h rfl, encode]
  | jpAddr | call | seImm | sneImm | ldImm | addImm | ldI | jpV0 | rnd | drw => simp [encode]
  | seReg | sneReg | ldReg | orReg | andReg | xorReg | addReg | sub | shr | subn | shl =>
    simp [nField_of_admits h rfl, encode]
  | skp | sknp | ldVDt | ldVK | ldDtV | ldStV | addI | ldF | ldB | ldMemV | ldVMem =>
    simp [kkField_of_admits h rfl, encode]

theorem exists_row_of_mem_opcodeRows : ∀ r ∈ opcodeRows, ∃ i : Instr, i.row = r := by
  simp [opcodeRows, opcodeRowsLow, opcodeRowsAlu, opcodeRowsHigh]

theorem exists_decodeWord_of_wordWellFormed {w : Word} (h : wordWellFormed w = true) :
    ∃ i, decodeWord w = .ok i := by
  obtain ⟨r, hr, hadmits⟩ := List.any_eq_true.mp h
  obtain ⟨i, rfl⟩ := exists_row_of_mem_opcodeRows r hr
  exact exists_decodeWord_of_row_admits hadmits

/-- Settles O4: a word that decodes is an encoding, so its own row admits it, and rows do not overlap; a word that a
row admits decodes. -/
theorem decoderAgreesWithTheOpcodeTable : Obligations.DecoderAgreesWithTheOpcodeTable := by
  refine ⟨fun w i h => ?_, fun w e h => ?_⟩
  · obtain rfl := encode_of_decodeWord h
    obtain ⟨hmem, hadmits⟩ := Laws.Encoding.of_instr i
    exact ⟨hadmits, fun r hr hr' => opcodeRows_eq_of_admits hr hmem hr' hadmits⟩
  · refine Bool.eq_false_iff.mpr fun hwf => ?_
    obtain ⟨i, hi⟩ := exists_decodeWord_of_wordWellFormed hwf
    simp [h] at hi

end Sys2Proof
end

section
/-! PROOFS. A fetched word that does not decode (O8). -/

namespace Sys2Proof.Machine

/-- Settles O8: the STEP's cycle, after the latch, takes the error InvalidOpcode at decode. -/
theorem invalidWordRaisesInvalidOpcode : Obligations.InvalidWordRaisesInvalidOpcode := by
  intro s k r e hrun hpc hdec
  refine ⟨(s.latched k r).onError .invalidOpcode s.pc (s.wordAt s.pc.toNat), ?_, ?_⟩
  · rw [hostStep_running s k r hrun]
    exact cycle_invalid (s.latched k r) hpc hdec
  · exact (s.latched k r).haltedWith_onError .invalidOpcode s.pc (s.wordAt s.pc.toNat)

end Sys2Proof.Machine
end

section
/-! PROOFS. The run state: what an instruction, a cycle and a key wait make of it, and the transitions of the host
operations (O12). -/

namespace Sys2Proof.Machine

/-! ### An instruction in RUNNING -/

/-- Only Fx0A has the run state in its footprint (10_state.md R33). -/
theorem runState_notMem_footprint (s : State) {i : Instr} (h : ∀ x, i ≠ .ldVK x) : .runState ∉ footprint s i := by
  cases i with
  | ldVK x => exact absurd rfl (h x)
  | _ => simp [footprint, pixelParts, byteParts, regParts]

theorem err_notMem_footprint (s : State) (i : Instr) : .err ∉ footprint s i := by
  cases i <;> simp [footprint, pixelParts, byteParts, regParts]

/-- Fx0A raises nothing and leaves the CORE waiting (46_input.md R228). -/
theorem exec_ldVK (x : Nibble) (s : State) :
    exec (.ldVK x) s = .next { s with waitX := x, runState := .awaitingKey } := rfl

/-- Every instruction but Fx0A halts with an error recorded, or keeps the run state and the record. -/
theorem exec_runState_of_ne_ldVK {i : Instr} {s t : State} (h : exec i s = .next t) (hi : ∀ x, i ≠ .ldVK x) :
    (t.runState = .halted ∧ t.err.code ≠ .none) ∨ (t.runState = s.runState ∧ t.err = s.err) := by
  rcases exec_effect h with ⟨e, rfl⟩ | heff
  · exact .inl ⟨rfl, e.code_ne_none⟩
  · exact .inr ⟨heff.unchangedBut .runState (runState_notMem_footprint s hi),
      heff.unchangedBut .err (err_notMem_footprint s i)⟩

/-! ### A cycle -/

/-- The next fetch reads Fx0A. -/
def State.FetchesKeyWait (s : State) : Prop :=
  s.pc.toNat ≤ 0xFFD ∧ ∃ x, decodeWord (s.wordAt s.pc.toNat) = .ok (.ldVK x)

theorem cycle_runState_of_keyWait {s t : State} (h : cycle s = .next t) (hwait : s.FetchesKeyWait) :
    t.runState = .awaitingKey := by
  obtain ⟨hpc, x, hdec⟩ := hwait
  rw [cycle_decoded s hpc hdec, exec_ldVK] at h
  cases h
  rfl

/-- A cycle that runs no Fx0A halts with an error recorded, or keeps the run state and the record. -/
theorem cycle_runState_of_not_keyWait {s t : State} (h : cycle s = .next t) (hwait : ¬s.FetchesKeyWait) :
    (t.runState = .halted ∧ t.err.code ≠ .none) ∨ (t.runState = s.runState ∧ t.err = s.err) := by
  rcases cycle_cases s with ⟨i, hpc, hdec, hexec⟩ | ⟨e, w, herr, -⟩
  · rw [hexec] at h
    have hne : ∀ x, i ≠ .ldVK x := fun x hi => hwait ⟨hpc, x, hi ▸ hdec⟩
    simpa using exec_runState_of_ne_ldVK h hne
  · rw [herr] at h
    cases h
    exact .inl ⟨rfl, e.code_ne_none⟩

/-- The transitions out of RUNNING (40_fetch_cycle.md R108). -/
theorem cycle_transitions {s t : State} (h : cycle s = .next t) (hrun : s.runState = .running) :
    (t.runState = .awaitingKey ↔ s.FetchesKeyWait) ∧
    (t.runState = .halted → t.err.code ≠ .none) ∧
    (t.runState = .running → t.err = s.err) := by
  by_cases hwait : s.FetchesKeyWait
  · simp [cycle_runState_of_keyWait h hwait, hwait]
  · rcases cycle_runState_of_not_keyWait h hwait with ⟨ht, hcode⟩ | ⟨ht, herr⟩
    · simp [ht, hwait, hcode]
    · simp [ht, hrun, hwait, herr]

/-! ### The key wait, and the other host operations -/

/-- A key wait ends iff there is a new key edge (46_input.md R229). -/
theorem State.keyResume_runState (s : State) (edges : Word) :
    (s.keyResume edges).runState = if edges = 0 then s.runState else .running := by
  unfold State.keyResume
  split
  · next hnone => rw [if_pos ((lowestSet_eq_none edges).mp hnone)]
  · next hsome =>
    have hedge : edges ≠ 0 := fun hzero => by simp [(lowestSet_eq_none edges).mpr hzero] at hsome
    rw [if_neg hedge]

theorem State.hostLoad_runState (s : State) (rom : List Byte) : (s.hostLoad rom).runState = s.runState := by
  rcases s.hostLoad_cases rom with heq | ⟨-, heq⟩ <;> simp [heq]

/-- Settles O12: each host operation by itself, and a STEP by the run state it starts from. -/
theorem runStateTransitions : Obligations.RunStateTransitions := by
  refine ⟨fun s t cfg h => ?reset, fun s t rom h => ?load, fun s t h => ?tick,
    fun s t k r h => ⟨fun hhalted => ?halted, fun hawait => ?awaitingKey, fun hrun => ?running⟩⟩
  case reset => cases h; rfl
  case load => cases h; exact s.hostLoad_runState rom
  case tick => cases h; rfl
  case halted =>
    cases (hostStep_halted s k r hhalted).symm.trans h
    exact hhalted
  case awaitingKey =>
    cases (hostStep_awaitingKey s k r hawait).symm.trans h
    rw [State.keyResume_runState, State.latched_runState, hawait]
  case running => exact cycle_transitions (s := s.latched k r) ((hostStep_running s k r hrun).symm.trans h) hrun

end Sys2Proof.Machine
end

section
/-! PROOFS. One step: the next host operation (O6), a fetch at the top of memory (O9), a jump to itself (O14). -/

namespace Sys2Proof.Machine

/-! ### The next host operation -/

theorem step_of_pending {s : State} {op : HostOp} {rest : List HostOp} (h : s.pending = op :: rest) :
    step s = hostOp op { s with pending := rest } := by
  simp only [step, hostNext, h]

theorem step_of_no_pending {s : State} (h : s.pending = []) :
    step s = hostStep (Config.freeKeys s.draws) (Config.freeRandom s.draws) { s with draws := s.draws + 1 } := by
  simp only [step, hostNext, h]

/-- Settles O6: a step is its host operation, and a STEP's cycle runs the word it decodes. -/
theorem stepRunsTheDecodedInstruction : Obligations.StepRunsTheDecodedInstruction :=
  ⟨fun _ _ _ => step_of_pending, fun _ => step_of_no_pending, fun s k r _ => hostStep_decoded s k r⟩

/-! ### A fetch at the top of memory -/

@[simp] theorem State.wordAt_latched (s : State) (k : Word) (r : Byte) (a : Nat) :
    (s.latched k r).wordAt a = s.wordAt a := rfl

/-- Settles O9: at 0xFFF the range check of the fetch fails, at 0xFFE the advance of PC; both offend with 0x1000. -/
theorem fetchAtTheTopRaisesAddressOutOfRange : Obligations.FetchAtTheTopRaisesAddressOutOfRange := by
  intro s k r hrun
  rw [hostStep_running s k r hrun]
  refine ⟨fun htop => ?_, fun htop => ?_⟩
  · have hpc : s.pc = 0xFFF := BitVec.eq_of_toNat_eq htop
    have hcycle : cycle (s.latched k r) = .next ((s.latched k r).onError (.addressOutOfRange 0x1000) 0xFFF 0) := by
      simpa [hpc] using cycle_range_error (s.latched k r) (by simp [hpc])
    exact ⟨_, hcycle, State.haltedWith_onError _ _ _ _⟩
  · have hpc : s.pc = 0xFFE := BitVec.eq_of_toNat_eq htop
    have hcycle : cycle (s.latched k r) =
        .next ((s.latched k r).onError (.addressOutOfRange 0x1000) 0xFFE (s.wordAt 0xFFE)) := by
      simpa [hpc] using cycle_advance_error (s.latched k r) htop
    exact ⟨_, hcycle, State.haltedWith_onError _ _ _ _⟩

/-! ### A jump to itself -/

/-- 1nnn raises nothing: a 12-bit address is inside the address space (41_control_flow.md R121). -/
theorem exec_jpAddr (nnn : Addr) (s : State) :
    exec (.jpAddr nnn) s = .next { s with pc := BitVec.ofNat 16 nnn.toNat } := by
  have hnnn := nnn.isLt
  simp only [exec, execJpAddr, s.writePc_ok (v := nnn.toNat) (by omega), complete_ok]

/-- A STEP of a jump to its own address leaves the state as the latch made it. -/
theorem hostStep_selfJump {s : State} (k : Word) (r : Byte) {nnn : Addr} (hrun : s.runState = .running)
    (hpc : s.pc.toNat ≤ 0xFFD) (hdec : decodeWord (s.wordAt s.pc.toNat) = .ok (.jpAddr nnn))
    (hself : nnn.toNat = s.pc.toNat) : hostStep k r s = .next (s.latched k r) := by
  have htarget : BitVec.ofNat 16 nnn.toNat = s.pc := by rw [hself, BitVec.ofNat_toNat, BitVec.setWidth_eq]
  rw [hostStep_decoded s k r hrun hpc hdec, exec_jpAddr, htarget]
  rfl

/-- Settles O14: the jump puts PC back where the fetch found it. -/
theorem selfJumpLoopsForEver : Obligations.SelfJumpLoopsForEver := by
  intro s k r nnn hrun hpc hdec hself
  exact ⟨s.latched k r, hostStep_selfJump k r hrun hpc hdec hself, s.unchangedBut_latched k r⟩

end Sys2Proof.Machine
end

section
/-! PROOFS. Control flow: jumps (O31, O36), the call stack (O30, O32, O33) and the register skips (O34). -/

namespace Sys2Proof.Machine

/-! ### Jumps -/

theorem toNat_ofNat_of_le {a : Nat} (h : a ≤ 0xFFF) : (BitVec.ofNat 16 a).toNat = a :=
  (BitVec.toNat_ofNat a 16).trans (Nat.mod_eq_of_lt (h.trans_lt (by decide)))

/-- Settles O31: a 12-bit address passes PC's range check. -/
theorem jumpSetsPc : Obligations.JumpSetsPc := by
  intro s nnn
  have hnnn : nnn.toNat ≤ 0xFFF := by omega
  exact ⟨_, exec_jpAddr nnn s, toNat_ofNat_of_le hnnn, s.unchangedBut_pc _⟩

theorem exec_jpV0_ok (s : State) {nnn : Addr} (h : nnn.toNat + (s.reg 0).toNat ≤ 0xFFF) :
    exec (.jpV0 nnn) s = .next { s with pc := BitVec.ofNat 16 (nnn.toNat + (s.reg 0).toNat) } := by
  simp only [exec, execJpV0, s.writePc_ok h, complete_ok]

theorem exec_jpV0_error (s : State) {nnn : Addr} (h : 0xFFF < nnn.toNat + (s.reg 0).toNat) :
    exec (.jpV0 nnn) s =
      .next (s.onError (.addressOutOfRange (nnn.toNat + (s.reg 0).toNat)) (s.pc - 2) (encode (.jpV0 nnn))) := by
  simp only [exec, execJpV0, s.writePc_error h, complete_error]

/-- Settles O36: the sum is exact, and PC's range check decides between the jump and the error. -/
theorem computedJumpAddsV0 : Obligations.ComputedJumpAddsV0 := by
  intro s nnn
  refine ⟨fun h => ?_, fun h => ?_⟩
  · exact ⟨_, exec_jpV0_ok s h, toNat_ofNat_of_le h, s.unchangedBut_pc _⟩
  · exact ⟨_, exec_jpV0_error s h, s.haltedWith_onError _ _ _⟩

/-! ### RET -/

/-- With a PC value on top of the stack, RET pops it into PC (41_control_flow.md R120). -/
theorem exec_ret_pops (s : State) {j : Fin Config.stackDepth} (hj : j.val + 1 = s.sp.val)
    (hslot : s.stack[j].toNat ≤ 0xFFF) :
    ∃ t, exec .ret s = .next t ∧ t.pc = s.stack[j] ∧ t.sp.val = j.val ∧ UnchangedBut {.pc, .sp} s t := by
  have hpc : BitVec.ofNat 16 s.stack[j].toNat = s.stack[j] := by rw [BitVec.ofNat_toNat, BitVec.setWidth_eq]
  refine ⟨_, ?_, hpc, rfl, (Effect.ret hj hslot).unchangedBut⟩
  simp only [exec, execRet, s.pop_ok j hj, bind, Except.bind, State.writePc_ok _ hslot, complete_ok]

theorem exec_ret_empty (s : State) (h : s.sp.val = 0) :
    exec .ret s = .next (s.onError .stackUnderflow (s.pc - 2) (encode .ret)) := by
  simp only [exec, execRet, s.pop_empty h, bind, Except.bind, complete_error]

/-- Settles O30: the top slot is below SP, and the popped PC value passes the range check. -/
theorem returnPopsIntoPc : Obligations.ReturnPopsIntoPc :=
  fun s => ⟨fun _ => exec_ret_pops s, fun hempty => ⟨_, exec_ret_empty s hempty, s.haltedWith_onError _ _ _⟩⟩

/-! ### CALL -/

/-- The footprint of a call is PC, SP and the slot SP names. -/
theorem footprint_call_subset (s : State) (nnn : Addr) {j : Fin Config.stackDepth} (hj : s.sp.val = j.val) :
    footprint s (.call nnn) ⊆ {.pc, .sp, .slot j} := by
  rintro p (rfl | rfl | ⟨l, hl, rfl⟩)
  · simp
  · simp
  · simp [Fin.ext (hl.trans hj)]

/-- With slot j free, CALL pushes PC into it and jumps (41_control_flow.md R122). -/
theorem exec_call_pushes (s : State) (nnn : Addr) {j : Fin Config.stackDepth} (hj : s.sp.val = j.val) :
    ∃ t, exec (.call nnn) s = .next t ∧ t.stack[j] = s.pc ∧ t.sp.val = j.val + 1 ∧ t.pc.toNat = nnn.toNat ∧
      UnchangedBut {.pc, .sp, .slot j} s t := by
  have hs : s.sp.val < Config.stackDepth := hj ▸ j.isLt
  have hnnn : nnn.toNat ≤ 0xFFF := by omega
  refine ⟨_, ?_, ?_, congrArg (· + 1) hj, toNat_ofNat_of_le hnnn,
    (Effect.call (nnn := nnn) hs hnnn).unchangedBut.mono (footprint_call_subset s nnn hj)⟩
  · simp only [exec, execCall, s.push_ok s.pc hs, bind, Except.bind, State.writePc_ok _ hnnn, complete_ok]
  · simp [hj]

theorem exec_call_full (s : State) (nnn : Addr) (hs : s.sp.val = Config.stackDepth) :
    exec (.call nnn) s = .next (s.onError .stackOverflow (s.pc - 2) (encode (.call nnn))) := by
  simp only [exec, execCall, s.push_full s.pc hs, bind, Except.bind, complete_error]

/-- Settles O32: below the stack's depth the push succeeds and the 12-bit target passes the range check. -/
theorem callPushesTheReturnAddress : Obligations.CallPushesTheReturnAddress :=
  fun s nnn => ⟨fun _ => exec_call_pushes s nnn,
    fun hfull => ⟨_, exec_call_full s nnn hfull, s.haltedWith_onError _ _ _⟩⟩

/-! ### Calls in sequence -/

/-- The first instruction of a sequence runs on the state its fetch leaves, the STEP's inputs being as they were; the
rest goes on from the state it answers. -/
theorem execSeq_cons {i : Instr} (is : List Instr) {s t : State} (h : exec i (s.fetched s.keys s.rnd) = .next t) :
    execSeq (i :: is) s = execSeq is t := by
  rw [State.fetched] at h
  simp only [execSeq, h]

/-- A return right after a call takes SP back and PC past the call (41_control_flow.md R123). -/
theorem execSeq_call_ret (s : State) (nnn : Addr) (hs : s.sp.val < 16) (hpc : s.pc.toNat ≤ 0xFFD) :
    ∃ t, execSeq [.call nnn, .ret] s = .next t ∧ t.pc = s.pc + 2 ∧ t.sp = s.sp := by
  obtain ⟨c, hcall, hslot, hcsp, -, -⟩ := exec_call_pushes (s.fetched s.keys s.rnd) nnn (j := ⟨s.sp.val, hs⟩) rfl
  rw [State.fetched_pc] at hslot
  have hle : (s.pc + 2).toNat ≤ 0xFFF := by bv_omega
  obtain ⟨t, hret, htpc, htsp, -⟩ := exec_ret_pops (c.fetched c.keys c.rnd) hcsp.symm (hslot ▸ hle)
  exact ⟨t, (execSeq_cons _ hcall).trans (execSeq_cons _ hret), htpc.trans hslot, Fin.ext htsp⟩

/-- Calls nest as long as a slot is free for each; none halts (41_control_flow.md R123). -/
theorem execSeq_calls (s : State) (targets : List Addr) (h : s.sp.val + targets.length ≤ 16) :
    ∃ t, execSeq (targets.map .call) s = .next t ∧ t.sp.val = s.sp.val + targets.length ∧
      t.runState = s.runState := by
  induction targets generalizing s with
  | nil => exact ⟨s, rfl, rfl, rfl⟩
  | cons nnn targets ih =>
    rw [List.length_cons] at h ⊢
    have hs : s.sp.val < 16 := by omega
    obtain ⟨c, hcall, -, hcsp, -, hframe⟩ :=
      exec_call_pushes (s.fetched s.keys s.rnd) nnn (j := ⟨s.sp.val, hs⟩) rfl
    simp only at hcsp
    have hcrun : c.runState = s.runState := hframe .runState (by simp)
    obtain ⟨t, hcalls, htsp, htrun⟩ := ih c (by omega)
    exact ⟨t, (execSeq_cons _ hcall).trans hcalls, by omega, htrun.trans hcrun⟩

/-- A call on a full stack halts with StackOverflow. -/
theorem execSeq_call_full (s : State) (nnn : Addr) (hs : s.sp.val = 16) :
    ∃ u, execSeq [.call nnn] s = .next u ∧ u.runState = .halted ∧ u.err.code = .stackOverflow :=
  ⟨_, execSeq_cons _ (exec_call_full _ nnn hs), rfl, rfl⟩

/-- Settles O33: the return pops what the call pushed, and sixteen calls fill the stack by induction on the list. -/
theorem callAndReturnLaw : Obligations.CallAndReturnLaw := by
  refine ⟨execSeq_call_ret, fun s targets hsp hlen => ?_⟩
  obtain ⟨t, hexec, htsp, hrun⟩ := execSeq_calls s targets (by omega)
  have hfull : t.sp.val = 16 := by omega
  exact ⟨t, hexec, hfull, hrun, fun nnn => execSeq_call_full t nnn hfull⟩

/-! ### Skips -/

/-- An instruction that is `Skip(c)` skips on the proposition `c` decides (41_control_flow.md R124). -/
theorem skipsWhen_of_exec {i : Instr} {s : State} {c : Bool} {p : Prop} (hc : c = true ↔ p)
    (hexec : exec i s = complete i s (s.skip c)) : SkipsWhen i s p := by
  refine ⟨fun hp => ?_, fun hp hpc => ?_, fun hp hpc => ?_⟩
  · rw [hexec, Bool.eq_false_iff.mpr (mt hc.mp hp), State.skip_false, complete_ok]
  · have hpc2 : BitVec.ofNat 16 (s.pc.toNat + 2) = s.pc + 2 := by bv_omega
    rw [hexec, hc.mpr hp, State.skip_true, s.writePc_ok (by omega), hpc2, complete_ok]
    exact ⟨_, rfl, rfl, s.unchangedBut_pc _⟩
  · have hpc0 : s.pc - 2 = 0xFFC := by bv_omega
    rw [hexec, hc.mpr hp, State.skip_true, s.writePc_error (by omega), hpc, complete_error, hpc0]
    exact ⟨_, rfl, s.haltedWith_onError _ _ _⟩

/-- Settles O34: each of the four is a skip on the comparison its pattern names. -/
theorem registerSkipsCompareAsTheirPatternsSay : Obligations.RegisterSkipsCompareAsTheirPatternsSay := by
  intro s x y kk
  refine ⟨?seImm, ?sneImm, ?seReg, ?sneReg⟩
  case seImm => exact skipsWhen_of_exec beq_iff_eq rfl
  case sneImm => exact skipsWhen_of_exec bne_iff_ne rfl
  case seReg => exact skipsWhen_of_exec beq_iff_eq rfl
  case sneReg => exact skipsWhen_of_exec bne_iff_ne rfl

end Sys2Proof.Machine
end

section
/-! PROOFS. The ALU instructions that write V[x] alone (O37, O38, O39, O46). -/

namespace Sys2Proof.Machine

theorem writesReg_of_exec {i : Instr} {s : State} {x : Nibble} {b : Byte} (h : exec i s = .next (s.setReg x b)) :
    WritesReg i s x b :=
  ⟨_, h, s.reg_setReg_self x b, s.unchangedBut_setReg x b⟩

/-! ### Loads, the immediate add and the bitwise operations -/

/-- Settles O37: each is one register write. -/
theorem registerLoadsCopyTheirSource : Obligations.RegisterLoadsCopyTheirSource :=
  fun _ _ _ _ => ⟨writesReg_of_exec rfl, writesReg_of_exec rfl⟩

/-- Settles O38: the sum of two bytes is the sum of their numbers modulo 256. -/
theorem addImmediateWrapsWithoutFlag : Obligations.AddImmediateWrapsWithoutFlag :=
  fun s x kk => ⟨s.reg x + kk, BitVec.toNat_add _ _, writesReg_of_exec rfl⟩

/-- Settles O39: each is one register write, and its byte is computed bit by bit. -/
theorem bitwiseOperationsWriteVxAlone : Obligations.BitwiseOperationsWriteVxAlone :=
  fun s x y => ⟨s.reg x ||| s.reg y, s.reg x &&& s.reg y, s.reg x ^^^ s.reg y,
    writesReg_of_exec rfl, writesReg_of_exec rfl, writesReg_of_exec rfl,
    fun _ _ => ⟨BitVec.getLsbD_or, BitVec.getLsbD_and, BitVec.getLsbD_xor⟩⟩

/-! ### The random byte -/

theorem writesReg_rnd (s : State) (x : Nibble) (kk : Byte) : WritesReg (.rnd x kk) s x (s.rnd &&& kk) :=
  writesReg_of_exec rfl

/-- A fetch writes the latched inputs and PC alone (40_fetch_cycle.md R100, R101). -/
theorem State.unchangedBut_fetched (s : State) (k : Word) (r : Byte) :
    UnchangedBut {.keys, .rnd, .pc} s (s.fetched k r) := by
  refine ((s.unchangedBut_latched k r).trans ((s.latched k r).unchangedBut_pc (s.pc + 2))).mono ?_
  rintro p ((rfl | rfl) | rfl) <;> simp

/-- Settles O46: the state that fetch leaves carries the byte of its own STEP. -/
theorem randomMasksTheByteOfItsStep : Obligations.RandomMasksTheByteOfItsStep := by
  refine fun s x kk => ⟨writesReg_rnd s x kk, fun k r hrun hpc hdec => ?_⟩
  obtain ⟨t, hexec, hreg, hframe⟩ := writesReg_rnd (s.fetched k r) x kk
  refine ⟨t, (hostStep_decoded s k r hrun hpc hdec).trans hexec, hreg, hframe .pc (by simp), ?_⟩
  refine ((s.unchangedBut_fetched k r).trans hframe).mono ?_
  rintro p ((rfl | rfl | rfl) | rfl) <;> simp

end Sys2Proof.Machine
end

section
/-! PROOFS. The ALU instructions that write a flag: each is `FlagOp` of its result and its flag (O40 to O44), and away
from VF the order of the two writes does not show (O45). -/

namespace Sys2Proof.Machine

/-! ### FlagOp -/

/-- An instruction that is `FlagOp(result, flag)` is a flag operation of what the two compute on the bytes' numbers
(42_alu.md R148). -/
theorem flagOperation_of_exec {i : Instr} {s : State} {x y : Nibble} {result : Byte → Byte → Byte}
    {flag : Byte → Byte → Bool} {r : Nat → Nat → Nat} {p : Nat → Nat → Prop}
    (hexec : exec i s = .next (s.flagOp x y result flag))
    (hresult : ∀ a b, (result a b).toNat = r a.toNat b.toNat)
    (hflag : ∀ a b, flag a b = true ↔ p a.toNat b.toNat) : FlagOperation i s x y r p := by
  refine ⟨_, boolByte (flag (s.reg x) (s.reg y)), hexec, s.unchangedBut_flagOp x y result flag,
    fun hp => ?_, fun hp => ?_, ?_⟩
  · rw [(hflag _ _).mpr hp, boolByte_true]
  · rw [Bool.eq_false_iff.mpr (mt (hflag _ _).mp hp), boolByte_false]
  · split
    · next hbefore =>
      refine ⟨?_, fun hx => ?_⟩
      · rw [s.reg_flagOp_before x y x _ _ hbefore, if_pos rfl, hresult]
      · rw [s.reg_flagOp_before x y vf _ _ hbefore, if_neg hx.symm, if_pos rfl]
    · next hafter =>
      rw [Bool.not_eq_true] at hafter
      refine ⟨fun hx => ?_, ?_⟩
      · rw [s.reg_flagOp_after x y x _ _ hafter, if_neg hx, if_pos rfl, hresult]
      · rw [s.reg_flagOp_after x y vf _ _ hafter, if_pos rfl]

/-! ### Addition and subtraction -/

theorem carry_iff (a b : Byte) : carry a b = true ↔ a.toNat + b.toNat > 0xFF := decide_eq_true_iff

/-- Settles O40: the carry is the sum of the numbers past 255. -/
theorem addSetsCarry : Obligations.AddSetsCarry :=
  fun _ _ _ => flagOperation_of_exec rfl BitVec.toNat_add carry_iff

theorem toNat_sub_byte (a b : Byte) : (a - b).toNat = (a.toNat + 256 - b.toNat) % 256 := by
  bv_omega

/-- `SubFlag` compares the numbers as CONFIG.SUB_FLAG says (42_alu.md R149). -/
theorem State.subFlag_iff (st : State) (m s : Byte) :
    st.subFlag m s = true ↔ if st.config.getLsbD 1 then m.toNat < s.toNat else m.toNat ≥ s.toNat := by
  unfold State.subFlag State.flagsBorrow
  split <;> exact decide_eq_true_iff

/-- Settles O41: the borrow is a comparison of the operands. -/
theorem subtractSetsTheBorrowFlag : Obligations.SubtractSetsTheBorrowFlag :=
  fun s _ _ => flagOperation_of_exec rfl toNat_sub_byte s.subFlag_iff

/-- Settles O42: the subtraction with its operands changed over. -/
theorem reverseSubtractSetsTheBorrowFlag : Obligations.ReverseSubtractSetsTheBorrowFlag :=
  fun s _ _ => flagOperation_of_exec rfl (fun a b => toNat_sub_byte b a) fun a b => s.subFlag_iff b a

/-! ### Shifts -/

theorem State.toNat_shiftSrc (s : State) (a b : Byte) :
    (s.shiftSrc a b).toNat = if s.config.getLsbD 0 then b.toNat else a.toNat :=
  apply_ite BitVec.toNat _ b a

theorem getLsbD_zero_iff (a : Byte) : a.getLsbD 0 = true ↔ a.toNat % 2 = 1 := by
  rw [BitVec.getLsbD, Nat.testBit_zero, decide_eq_true_iff]

theorem getLsbD_seven_iff (a : Byte) : a.getLsbD 7 = true ↔ a.toNat ≥ 128 := by
  rw [← a.msb_eq_getLsbD_last, BitVec.msb_eq_true_iff_two_mul_ge]
  omega

/-- Settles O43: shifting right halves the source, and its bit 0 is the remainder. -/
theorem shiftRightSetsTheBitShiftedOut : Obligations.ShiftRightSetsTheBitShiftedOut := by
  refine fun s x y => flagOperation_of_exec rfl (fun a b => ?_) fun a b => ?_
  · rw [BitVec.toNat_ushiftRight, Nat.shiftRight_one, s.toNat_shiftSrc]
  · rw [getLsbD_zero_iff, s.toNat_shiftSrc]

/-- Settles O44: shifting left doubles the source, and its bit 7 is what 256 takes from the double. -/
theorem shiftLeftSetsTheBitShiftedOut : Obligations.ShiftLeftSetsTheBitShiftedOut := by
  refine fun s x y => flagOperation_of_exec rfl (fun a b => ?_) fun a b => ?_
  · rw [BitVec.toNat_shiftLeft, Nat.shiftLeft_eq, s.toNat_shiftSrc]
  · rw [getLsbD_seven_iff, s.toNat_shiftSrc]

/-! ### The two flag orders -/

theorem State.setReg_comm (s : State) {x y : Nibble} (b c : Byte) (h : x ≠ y) :
    (s.setReg x b).setReg y c = (s.setReg y c).setReg x b := by
  have hne : x.toNat ≠ y.toNat := fun hxy => h (BitVec.eq_of_toNat_eq hxy)
  simp only [State.setReg, Vector.set_comm b c hne]

/-- Where neither operand is VF, both orders read the old operands and write the same two registers. -/
theorem State.flagOp_away_from_vf (s : State) {x y : Nibble} (result : Byte → Byte → Byte)
    (flag : Byte → Byte → Bool) (hx : x ≠ vf) (hy : y ≠ vf) :
    s.flagOp x y result flag =
      (s.setReg vf (boolByte (flag (s.reg x) (s.reg y)))).setReg x (result (s.reg x) (s.reg y)) := by
  unfold State.flagOp
  split
  · simp only [State.reg_setReg, if_neg hx, if_neg hy]
  · exact s.setReg_comm _ _ hx

/-- The state with another CONFIG. -/
def State.withConfig (s : State) (c : BitVec 4) : State := { s with config := c }

/-- A flag operation away from VF does not read CONFIG. -/
theorem State.flagOp_withConfig (s : State) {x y : Nibble} (c : BitVec 4) (result : Byte → Byte → Byte)
    (flag : Byte → Byte → Bool) (hx : x ≠ vf) (hy : y ≠ vf) :
    ((s.withConfig c).flagOp x y result flag).withConfig s.config =
      (s.setReg vf (boolByte (flag (s.reg x) (s.reg y)))).setReg x (result (s.reg x) (s.reg y)) := by
  rw [State.flagOp_away_from_vf _ result flag hx hy]
  rfl

theorem State.subFlag_withConfig (s : State) {c : BitVec 4} (h : c.getLsbD 1 = s.config.getLsbD 1) :
    (s.withConfig c).subFlag = s.subFlag := by
  have hborrow : (s.withConfig c).flagsBorrow = s.flagsBorrow := h
  unfold State.subFlag
  rw [hborrow]

theorem State.shiftSrc_withConfig (s : State) {c : BitVec 4} (h : c.getLsbD 0 = s.config.getLsbD 0) :
    (s.withConfig c).shiftSrc = s.shiftSrc := by
  have hsource : (s.withConfig c).shiftsVy = s.shiftsVy := h
  unfold State.shiftSrc
  rw [hsource]

/-- Under every CONFIG of one SHIFT_SRC and SUB_FLAG, a flag-writing ALU instruction is `FlagOp` of one result and one
flag. -/
theorem exec_withConfig_eq_flagOp (s : State) {x y : Nibble} {i : Instr}
    (hi : i ∈ [Instr.addReg x y, .sub x y, .shr x y, .subn x y, .shl x y]) :
    ∃ result flag, ∀ c : BitVec 4, c.getLsbD 0 = s.config.getLsbD 0 → c.getLsbD 1 = s.config.getLsbD 1 →
      exec i (s.withConfig c) = .next ((s.withConfig c).flagOp x y result flag) := by
  simp only [List.mem_cons, List.not_mem_nil, or_false] at hi
  rcases hi with rfl | rfl | rfl | rfl | rfl
  · exact ⟨_, _, fun _ _ _ => rfl⟩
  · exact ⟨_, fun a b => s.subFlag a b, fun c _ h1 => by rw [← s.subFlag_withConfig h1]; rfl⟩
  · exact ⟨fun a b => s.shiftSrc a b >>> 1, fun a b => (s.shiftSrc a b).getLsbD 0,
      fun c h0 _ => by rw [← s.shiftSrc_withConfig h0]; rfl⟩
  · exact ⟨_, fun a b => s.subFlag b a, fun c _ h1 => by rw [← s.subFlag_withConfig h1]; rfl⟩
  · exact ⟨fun a b => s.shiftSrc a b <<< 1, fun a b => (s.shiftSrc a b).getLsbD 7,
      fun c h0 _ => by rw [← s.shiftSrc_withConfig h0]; rfl⟩

/-- Settles O45: FLAG_ORDER is no part of the result or the flag, and the order of the two writes does not show. -/
theorem flagOrdersAgreeAwayFromVf : Obligations.FlagOrdersAgreeAwayFromVf := by
  intro s t u x y i hx hy hi ht hu
  obtain ⟨result, flag, hexec⟩ := exec_withConfig_eq_flagOp s hi
  have hbefore := hexec (s.config ||| 0b0100) (by simp) (by simp)
  have hafter := hexec (s.config &&& 0b1011) (by simp) (by simp)
  cases hbefore.symm.trans ht
  cases hafter.symm.trans hu
  exact (s.flagOp_withConfig _ result flag hx hy).trans (s.flagOp_withConfig _ result flag hx hy).symm

end Sys2Proof.Machine
end

section
/-! PROOFS. The index register (O47, O48) and the memory transfers: the decimal digits (O49), the block store (O50), the
block load (O51), and the two in sequence (O52). -/

namespace Sys2Proof.Machine

/-! ### Writes of I -/

/-- An instruction that is `I <- v`, with `v` an address, completes and writes I alone (10_state.md R23). -/
theorem setsIndex_of_exec {i : Instr} {s : State} {v : Nat} (hexec : exec i s = complete i s (s.writeI v))
    (hv : v ≤ 0xFFF) : ∃ t, exec i s = .next t ∧ t.i.toNat = v ∧ UnchangedBut {.i} s t := by
  rw [hexec, s.writeI_ok hv, complete_ok]
  exact ⟨_, rfl, toNat_ofNat_of_le hv, s.unchangedBut_i _⟩

/-- Settles O47: a 12-bit address and five times a byte, 1275 at most, pass I's range check. -/
theorem indexLoadsSetI : Obligations.IndexLoadsSetI :=
  fun _ _ _ => ⟨setsIndex_of_exec rfl (by omega), setsIndex_of_exec rfl (by omega)⟩

theorem exec_addI_error (s : State) {x : Nibble} (h : 0xFFF < s.i.toNat + (s.reg x).toNat) :
    exec (.addI x) s =
      .next (s.onError (.addressOutOfRange (s.i.toNat + (s.reg x).toNat)) (s.pc - 2) (encode (.addI x))) := by
  simp only [exec, execAddI, s.writeI_error h, complete_error]

/-- Settles O48: the sum is exact, and I's range check decides between the write and the error. -/
theorem addToIndexIsRangeChecked : Obligations.AddToIndexIsRangeChecked :=
  fun s _ _ => ⟨setsIndex_of_exec rfl, fun h => ⟨_, exec_addI_error s h, s.haltedWith_onError _ _ _⟩⟩

/-! ### Fx33 -/

theorem toNat_hundreds (v : Byte) : (hundreds v).toNat = v.toNat / 100 := by
  rw [hundreds, BitVec.toNat_ofNat]
  omega

theorem toNat_tens (v : Byte) : (tens v).toNat = v.toNat / 10 % 10 := by
  rw [tens, BitVec.toNat_ofNat]
  omega

theorem toNat_units (v : Byte) : (units v).toNat = v.toNat % 10 := by
  rw [units, BitVec.toNat_ofNat]
  omega

/-- The three decimal digits of a byte, most significant first. -/
def digits (v : Byte) : List Byte := [hundreds v, tens v, units v]

@[simp] theorem length_digits (v : Byte) : (digits v).length = 3 := rfl

/-- Where its three bytes fit, Fx33 is one block store of the digits (43_index_memory.md R173). -/
theorem exec_ldB (s : State) {x : Nibble} (h : s.i.toNat + 2 ≤ 0xFFF) :
    exec (.ldB x) s = .next (s.writeBytes s.i.toNat (digits (s.reg x))) := by
  have hrange : checkRange s.i.toNat 3 = .ok () := checkRange_ok (Nat.succ_le_succ h)
  have hi : s.i.toNat ≤ 0xFFF := by omega
  have hi1 : s.i.toNat + 1 ≤ 0xFFF := by omega
  simp only [exec, execLdB, hrange, bind, Except.bind, State.memWrite_ok _ _ hi, State.memWrite_ok _ _ hi1,
    State.memWrite_ok _ _ h, complete_ok]
  rfl

theorem exec_ldB_error (s : State) {x : Nibble} (hi : s.i.toNat ≤ 0xFFF) (h : 0xFFF < s.i.toNat + 2) :
    exec (.ldB x) s = .next (s.onError (.addressOutOfRange 0x1000) (s.pc - 2) (encode (.ldB x))) := by
  have hrange : checkRange s.i.toNat 3 = .error (.addressOutOfRange 0x1000) := checkRange_error hi (Nat.succ_lt_succ h)
  simp only [exec, execLdB, hrange, bind, Except.bind, complete_error]

/-- The k-th address of a stored block holds its k-th byte. -/
theorem State.readByte_writeBytes_add (s : State) (a : Nat) {bs : List Byte} {k : Nat} (hk : k < bs.length) :
    (s.writeBytes a bs).readByte (a + k) = bs[k] := by
  simp [State.readByte_writeBytes, hk]

theorem State.readByte_writeBytes_digits (s : State) (a : Nat) (v : Byte) :
    (s.writeBytes a (digits v)).readByte a = hundreds v ∧
    (s.writeBytes a (digits v)).readByte (a + 1) = tens v ∧
    (s.writeBytes a (digits v)).readByte (a + 2) = units v := by
  refine ⟨?_, ?_, ?_⟩
  · exact s.readByte_writeBytes_add a (k := 0) (by simp)
  · exact s.readByte_writeBytes_add a (k := 1) (by simp)
  · exact s.readByte_writeBytes_add a (k := 2) (by simp)

/-- Settles O49: the digits are stored as one block, or the range check fails before any of them is. -/
theorem decimalDigitsAreStoredAtI : Obligations.DecimalDigitsAreStoredAtI := by
  refine fun s x hi => ⟨fun h => ?_, fun h => ⟨_, exec_ldB_error s hi h, s.haltedWith_onError _ _ _⟩⟩
  obtain ⟨hhundreds, htens, hunits⟩ := s.readByte_writeBytes_digits s.i.toNat (s.reg x)
  refine ⟨_, exec_ldB s h, ?_, ?_, ?_, s.unchangedBut_writeBytes _ (digits (s.reg x))⟩
  · rw [hhundreds, toNat_hundreds]
  · rw [htens, toNat_tens]
  · rw [hunits, toNat_units]

/-! ### Fx55 -/

/-- The address of V[j] in a stored block V0..Vx holds V[j]. -/
theorem State.readByte_writeBytes_regBlock_toNat (s : State) (a : Nat) {x j : Nibble} (hj : j.toNat ≤ x.toNat) :
    (s.writeBytes a (s.regBlock x)).readByte (a + j.toNat) = s.reg j := by
  rw [s.readByte_writeBytes_regBlock a hj, BitVec.ofNat_toNat, BitVec.setWidth_eq]

theorem State.unchangedBut_writeBytes_regBlock (s : State) (a : Nat) (x : Nibble) :
    UnchangedBut (byteParts a (x.toNat + 1)) s (s.writeBytes a (s.regBlock x)) :=
  s.length_regBlock x ▸ s.unchangedBut_writeBytes a (s.regBlock x)

theorem exec_ldMemV_error (s : State) {x : Nibble} (hi : s.i.toNat ≤ 0xFFF) (h : 0xFFF < s.i.toNat + x.toNat) :
    exec (.ldMemV x) s = .next (s.onError (.addressOutOfRange 0x1000) (s.pc - 2) (encode (.ldMemV x))) := by
  have hlong : Config.memSize < s.i.toNat + (s.regBlock x).length := by
    rw [State.length_regBlock]
    exact Nat.succ_lt_succ h
  simp only [exec, execLdMemV, s.storeBlock_error hi hlong, complete_error]

/-- Settles O50: the block is stored whole, or its range check fails. -/
theorem blockStoreWritesV0ToVx : Obligations.BlockStoreWritesV0ToVx :=
  fun s x hi => ⟨fun h => ⟨_, exec_ldMemV s h, fun _ => s.readByte_writeBytes_regBlock_toNat _,
      s.unchangedBut_writeBytes_regBlock _ x⟩,
    fun h => ⟨_, exec_ldMemV_error s hi h, s.haltedWith_onError _ _ _⟩⟩

/-! ### Fx65 -/

/-- Fx65 inside the address space loads V0..Vx from the block at I and writes no other part of the state
(43_index_memory.md R175). -/
theorem exec_ldVMem_loads (s : State) {x : Nibble} (h : s.i.toNat + x.toNat ≤ 0xFFF) :
    ∃ t, exec (.ldVMem x) s = .next t ∧
      (∀ j : Nibble, j.toNat ≤ x.toNat → t.reg j = s.readByte (s.i.toNat + j.toNat)) ∧
      UnchangedBut (regParts x) s t := by
  have hfits : s.i.toNat + (x.toNat + 1) ≤ Config.memSize := Nat.succ_le_succ h
  refine ⟨s.setRegsFrom 0 ((List.range (x.toNat + 1)).map fun k => s.readByte (s.i.toNat + k)), ?_, fun j hj => ?_,
    (Effect.setRegsFrom s x (by simp)).unchangedBut⟩
  · simp only [exec, execLdVMem, s.loadBlock_ok hfits, bind, Except.bind, pure, Except.pure, complete_ok]
  · have hx := x.isLt
    rw [State.reg_setRegsFrom _ _ _ _ (by simp; omega), dif_pos (by simp; omega)]
    simp

theorem exec_ldVMem_error (s : State) {x : Nibble} (hi : s.i.toNat ≤ 0xFFF) (h : 0xFFF < s.i.toNat + x.toNat) :
    exec (.ldVMem x) s = .next (s.onError (.addressOutOfRange 0x1000) (s.pc - 2) (encode (.ldVMem x))) := by
  have hlong : Config.memSize < s.i.toNat + (x.toNat + 1) := Nat.succ_lt_succ h
  simp only [exec, execLdVMem, s.loadBlock_error hi hlong, bind, Except.bind, complete_error]

/-- Settles O51: the block is loaded whole, or its range check fails. -/
theorem blockLoadReadsV0ToVx : Obligations.BlockLoadReadsV0ToVx :=
  fun s _ hi => ⟨exec_ldVMem_loads s, fun h => ⟨_, exec_ldVMem_error s hi h, s.haltedWith_onError _ _ _⟩⟩

/-! ### Fx55, then Fx65 -/

theorem reg_notMem_regParts {x j : Nibble} (h : x.toNat < j.toNat) : .reg j ∉ regParts x := by
  rintro ⟨k, hk, hjk⟩
  cases hjk
  exact Nat.not_le.mpr h hk

/-- Settles O52: the load reads each register's byte from where the store put it, and its frame keeps the registers
above. -/
theorem blockStoreThenLoadRestoresTheRegisters : Obligations.BlockStoreThenLoadRestoresTheRegisters := by
  refine fun s u x h => ⟨_, exec_ldMemV s h, fun hi hmem => ?_⟩
  rw [State.writeBytes_i] at hi
  obtain ⟨w, hload, hregs, hframe⟩ := exec_ldVMem_loads u (hi ▸ h)
  refine ⟨w, hload, fun j hj => ?_, fun j hj => hframe (.reg j) (reg_notMem_regParts hj)⟩
  rw [hregs j hj, hmem, hi, s.readByte_writeBytes_regBlock_toNat _ hj]

end Sys2Proof.Machine
end

section
/-! PROOFS. CLS (O53). -/

namespace Sys2Proof.Machine

/-- Writing the display changes pixels alone. -/
theorem State.unchangedBut_display (s : State) (d : Display) : UnchangedBut pixelParts s { s with display := d } := by
  intro p hp
  cases p with
  | pixel x y => exact absurd ⟨x, y, rfl⟩ hp
  | _ => rfl

theorem exec_cls (s : State) : exec .cls s = .next { s with display := Display.blank } := rfl

/-- Settles O53: CLS writes the blank display. -/
theorem clearBlanksTheDisplay : Obligations.ClearBlanksTheDisplay :=
  fun s => ⟨_, exec_cls s, Display.pixel_blank, s.unchangedBut_display _⟩

end Sys2Proof.Machine
end

section
/-! PROOFS. DRW: the pixels and VF after one draw (O54), and after two equal draws (O55). -/

namespace Sys2Proof.Machine

/-! ### The pixels of a draw -/

/-- The pixels the n-row sprite at I draws at (V[x], V[y]), in the order of the loops of 44_display.md R191. -/
def State.drawPixels (s : State) (x y n : Nibble) : List (Nat × Nat) :=
  spritePixels s.wrapsSprites (s.reg x).toNat (s.reg y).toNat
    ((List.range n.toNat).map fun k => s.readByte (s.i.toNat + k))

theorem State.drawPixels_in (s : State) (x y n : Nibble) : ∀ p ∈ s.drawPixels x y n, p.1 < 64 ∧ p.2 < 32 :=
  spritePixels_in _ _ _ _

/-- At most 15 rows are fewer than the field's 32, so no two of them meet under WRAP (44_display.md R192). -/
theorem State.nodup_drawPixels (s : State) (x y n : Nibble) : (s.drawPixels x y n).Nodup :=
  nodup_spritePixels _ _ _ _ (by rw [List.length_map, List.length_range]; omega)

theorem State.mem_drawPixels_iff (s : State) (x y n : Nibble) {px py : Nat} :
    (px, py) ∈ s.drawPixels x y n ↔ px < 64 ∧ py < 32 ∧ s.SpriteDraws x y n px py := by
  refine ⟨fun hmem => ?_, fun ⟨hx, hy, hdraws⟩ => (s.mem_spritePixels_iff_draws x y n hx hy).mpr hdraws⟩
  obtain ⟨hx, hy⟩ := s.drawPixels_in x y n _ hmem
  exact ⟨hx, hy, (s.mem_spritePixels_iff_draws x y n hx hy).mp hmem⟩

/-! ### One draw -/

/-- The state after a draw whose rows are in memory: the blit, then VF. -/
def State.drawn (s : State) (x y n : Nibble) : State :=
  { s with display := (s.display.blit false (s.drawPixels x y n)).1 }.setReg vf
    (boolByte (s.display.blit false (s.drawPixels x y n)).2)

theorem exec_drw (s : State) {x y n : Nibble} (h : n.toNat = 0 ∨ s.i.toNat + n.toNat - 1 ≤ 0xFFF) :
    exec (.drw x y n) s = .next (s.drawn x y n) := by
  simp only [exec, execDrw, s.spriteRows_ok n h, bind, Except.bind]
  rfl

theorem exec_drw_error (s : State) {x y n : Nibble} (hi : s.i.toNat ≤ 0xFFF) (hn : 1 ≤ n.toNat)
    (h : 0xFFF < s.i.toNat + n.toNat - 1) :
    exec (.drw x y n) s = .next (s.onError (.addressOutOfRange 0x1000) (s.pc - 2) (encode (.drw x y n))) := by
  simp only [exec, execDrw, s.spriteRows_error n hi hn h, bind, Except.bind, complete_error]

theorem State.unchangedBut_drawn (s : State) (x y n : Nibble) :
    UnchangedBut (pixelParts ∪ {.reg vf}) s (s.drawn x y n) :=
  (Effect.draw s _ _).unchangedBut

theorem State.pixel_drawn (s : State) (x y n : Nibble) (px py : Nat) : (s.drawn x y n).display.pixel px py =
    if (px, py) ∈ s.drawPixels x y n then !s.display.pixel px py else s.display.pixel px py :=
  s.display.pixel_blit _ _ (s.drawPixels_in x y n) (s.nodup_drawPixels x y n) px py

theorem State.pixel_drawn_of_draws (s : State) {x y n : Nibble} {px py : Nat} (hx : px < 64) (hy : py < 32)
    (h : s.SpriteDraws x y n px py) : (s.drawn x y n).display.pixel px py = !s.display.pixel px py := by
  rw [State.pixel_drawn, if_pos ((s.mem_drawPixels_iff x y n).mpr ⟨hx, hy, h⟩)]

theorem State.pixel_drawn_of_not_draws (s : State) {x y n : Nibble} {px py : Nat}
    (h : ¬s.SpriteDraws x y n px py) : (s.drawn x y n).display.pixel px py = s.display.pixel px py := by
  rw [State.pixel_drawn, if_neg]
  intro hmem
  obtain ⟨-, -, hdraws⟩ := (s.mem_drawPixels_iff x y n).mp hmem
  exact h hdraws

theorem State.pixel_drawn_false_iff (s : State) {x y n : Nibble} {px py : Nat} (hx : px < 64) (hy : py < 32)
    (hset : s.display.pixel px py = true) :
    (s.drawn x y n).display.pixel px py = false ↔ s.SpriteDraws x y n px py := by
  by_cases h : s.SpriteDraws x y n px py
  · simp [s.pixel_drawn_of_draws hx hy h, hset, h]
  · simp [s.pixel_drawn_of_not_draws h, hset, h]

/-- Some pixel of the field that the sprite draws is set. -/
def State.SpriteHits (s : State) (x y n : Nibble) : Prop :=
  ∃ px py, px < 64 ∧ py < 32 ∧ s.SpriteDraws x y n px py ∧ s.display.pixel px py = true

/-- A set pixel is drawn iff the draw unsets it (44_display.md R191). -/
theorem State.spriteHits_iff (s : State) (x y n : Nibble) : s.SpriteHits x y n ↔ ∃ px py, px < 64 ∧ py < 32 ∧
    s.display.pixel px py = true ∧ (s.drawn x y n).display.pixel px py = false := by
  refine exists₂_congr fun px py => ⟨fun ⟨hx, hy, hdraws, hset⟩ => ?_, fun ⟨hx, hy, hset, hunset⟩ => ?_⟩
  · exact ⟨hx, hy, hset, (s.pixel_drawn_false_iff hx hy hset).mpr hdraws⟩
  · exact ⟨hx, hy, (s.pixel_drawn_false_iff hx hy hset).mp hunset, hset⟩

theorem State.blit_hit_iff (s : State) (x y n : Nibble) :
    (s.display.blit false (s.drawPixels x y n)).2 = true ↔ s.SpriteHits x y n := by
  rw [Display.hit_blit _ _ _ (s.drawPixels_in x y n) (s.nodup_drawPixels x y n)]
  simp [State.SpriteHits, State.mem_drawPixels_iff, and_assoc]

theorem State.reg_vf_drawn_of_hits (s : State) {x y n : Nibble} (h : s.SpriteHits x y n) :
    (s.drawn x y n).reg vf = 1 := by
  rw [State.drawn, State.reg_setReg_self, (s.blit_hit_iff x y n).mpr h, boolByte_true]

theorem State.reg_vf_drawn_of_not_hits (s : State) {x y n : Nibble} (h : ¬s.SpriteHits x y n) :
    (s.drawn x y n).reg vf = 0 := by
  rw [State.drawn, State.reg_setReg_self, Bool.eq_false_iff.mpr (mt (s.blit_hit_iff x y n).mp h), boolByte_false]

theorem State.reg_vf_drawn_iff (s : State) (x y n : Nibble) : (s.drawn x y n).reg vf = 1 ↔ s.SpriteHits x y n := by
  refine ⟨fun h => ?_, s.reg_vf_drawn_of_hits⟩
  by_contra hmiss
  rw [s.reg_vf_drawn_of_not_hits hmiss] at h
  exact absurd h (by decide)

/-- Settles O54: the blit flips each pixel of its list once, the list is what the sprite draws, and it hits iff it
unsets a pixel. -/
theorem drawTogglesExactlyTheSpritePixels : Obligations.DrawTogglesExactlyTheSpritePixels := by
  refine fun s x y n hi => ⟨fun h => ?_, fun hn h => ⟨_, exec_drw_error s hi hn h, s.haltedWith_onError _ _ _⟩⟩
  refine ⟨s.drawn x y n, exec_drw s h, fun px py hx hy => ?_, fun hunset => ?_, fun hunset => ?_,
    s.unchangedBut_drawn x y n⟩
  · exact ⟨s.pixel_drawn_of_draws hx hy, s.pixel_drawn_of_not_draws⟩
  · exact s.reg_vf_drawn_of_hits ((s.spriteHits_iff x y n).mpr hunset)
  · exact s.reg_vf_drawn_of_not_hits (mt (s.spriteHits_iff x y n).mp hunset)

/-! ### Two equal draws -/

/-- A draw leaves I, memory, CONFIG and every register but VF, so away from VF the next one draws the same pixels. -/
theorem State.spriteDraws_drawn_iff (s : State) {x y : Nibble} (n : Nibble) (hx : x ≠ vf) (hy : y ≠ vf)
    (px py : Nat) : (s.drawn x y n).SpriteDraws x y n px py ↔ s.SpriteDraws x y n px py := by
  have hregx : (s.drawn x y n).reg x = s.reg x := (State.reg_setReg _ _ _ _).trans (if_neg hx)
  have hregy : (s.drawn x y n).reg y = s.reg y := (State.reg_setReg _ _ _ _).trans (if_neg hy)
  simp only [State.SpriteDraws, hregx, hregy]
  rfl

/-- The second draw flips each pixel of the first back (44_display.md R194). -/
theorem State.pixel_drawn_drawn (s : State) {x y : Nibble} (n : Nibble) (hx : x ≠ vf) (hy : y ≠ vf) {px py : Nat}
    (hpx : px < 64) (hpy : py < 32) :
    ((s.drawn x y n).drawn x y n).display.pixel px py = s.display.pixel px py := by
  have hsame := s.spriteDraws_drawn_iff n hx hy px py
  by_cases h : s.SpriteDraws x y n px py
  · rw [State.pixel_drawn_of_draws _ hpx hpy (hsame.mpr h), s.pixel_drawn_of_draws hpx hpy h, Bool.not_not]
  · rw [State.pixel_drawn_of_not_draws _ (mt hsame.mp h), s.pixel_drawn_of_not_draws h]

/-- The second draw hits the pixels that the first one set. -/
theorem State.spriteHits_drawn_iff (s : State) {x y : Nibble} (n : Nibble) (hx : x ≠ vf) (hy : y ≠ vf) :
    (s.drawn x y n).SpriteHits x y n ↔
      ∃ px py, px < 64 ∧ py < 32 ∧ s.SpriteDraws x y n px py ∧ s.display.pixel px py = false := by
  refine exists₂_congr fun px py => and_congr_right fun hpx => and_congr_right fun hpy => ?_
  rw [s.spriteDraws_drawn_iff n hx hy]
  refine and_congr_right fun hdraws => ?_
  rw [s.pixel_drawn_of_draws hpx hpy hdraws, Bool.not_eq_true']

/-- A sprite that draws no pixel of the field hits none. -/
theorem State.not_spriteHits_of_draws_none {s : State} {x y n : Nibble}
    (h : ¬∃ px py, px < 64 ∧ py < 32 ∧ s.SpriteDraws x y n px py) : ¬s.SpriteHits x y n :=
  fun ⟨px, py, hx, hy, hdraws, _⟩ => h ⟨px, py, hx, hy, hdraws⟩

/-- Settles O55: both draws list the same pixels, so the second meets each of them flipped and flips it back. -/
theorem drawingTwiceRestoresTheDisplay : Obligations.DrawingTwiceRestoresTheDisplay := by
  intro s x y n hx hy hi hrows
  refine ⟨s.drawn x y n, (s.drawn x y n).drawn x y n, exec_drw s hrows, exec_drw (s.drawn x y n) hrows,
    fun px py => s.pixel_drawn_drawn n hx hy, ?_, fun hnone => ⟨?_, ?_⟩⟩
  · rw [State.reg_vf_drawn_iff, s.spriteHits_drawn_iff n hx hy]
  · exact s.reg_vf_drawn_of_not_hits (State.not_spriteHits_of_draws_none hnone)
  · refine State.reg_vf_drawn_of_not_hits _ (State.not_spriteHits_of_draws_none ?_)
    simpa only [s.spriteDraws_drawn_iff n hx hy] using hnone

end Sys2Proof.Machine
end

section
/-! PROOFS. The output ports DISPLAY and SOUND (O27). -/

namespace Sys2Proof.Machine

/-! ### DISPLAY -/

/-- One row put below the rows above it (44_display.md R195). -/
def packRow (row : BitVec 64) (above : BitVec 2048) : BitVec 2048 := (above <<< 64) ||| row.zeroExtend 2048

theorem State.displayPort_eq (s : State) : s.displayPort = s.display.toList.foldr packRow 0 := rfl

theorem getLsbD_packRow_low (row : BitVec 64) (above : BitVec 2048) {x : Nat} (hx : x < 64) :
    (packRow row above).getLsbD x = row.getLsbD x := by
  have hx2048 : x < 2048 := by omega
  simp [packRow, hx, hx2048]

theorem getLsbD_packRow_high (row : BitVec 64) (above : BitVec 2048) {j : Nat} (hj : j + 64 < 2048) :
    (packRow row above).getLsbD (j + 64) = above.getLsbD j := by
  simp [packRow, hj, BitVec.getLsbD_eq_getElem (Nat.lt_of_add_right_lt hj)]

/-- Rows packed one above the other: bit y*64 + x is bit x of row y. -/
theorem getLsbD_foldr_packRow (rows : List (BitVec 64)) {x y : Nat} (hx : x < 64) (hy : y < 32)
    (hrow : y < rows.length) : (rows.foldr packRow 0).getLsbD (y * 64 + x) = rows[y].getLsbD x := by
  induction rows generalizing y with
  | nil => simp at hrow
  | cons row rows ih =>
    cases y with
    | zero => simpa using getLsbD_packRow_low row _ hx
    | succ y =>
      have hbit : (y + 1) * 64 + x = (y * 64 + x) + 64 := by omega
      rw [List.foldr_cons, hbit, getLsbD_packRow_high _ _ (by omega), ih (by omega) (Nat.lt_of_succ_lt_succ hrow)]
      rfl

theorem State.getLsbD_displayPort (s : State) {x y : Nat} (hx : x < 64) (hy : y < 32) :
    s.displayPort.getLsbD (y * 64 + x) = s.display.pixel x y := by
  rw [State.displayPort_eq, getLsbD_foldr_packRow _ hx hy (by simpa using hy)]
  simp [Display.pixel, hy]

/-! ### SOUND -/

theorem State.sound_iff (s : State) : s.sound = true ↔ s.st.toNat ≠ 0 := by
  simp [State.sound, ← BitVec.toNat_inj]

/-- Settles O27: the port packs the rows of the display, row 0 lowest, and SOUND compares ST with 0. -/
theorem outputPortsShowDisplayAndSound : Obligations.OutputPortsShowDisplayAndSound :=
  fun s => ⟨fun _ _ => s.getLsbD_displayPort, s.sound_iff⟩

end Sys2Proof.Machine
end

section
/-! PROOFS. The timers: TICK (O26), and the instructions that copy between V[x] and a timer (O56). -/

namespace Sys2Proof.Machine

/-! ### Frames -/

/-- Writing DT changes DT alone. -/
theorem State.unchangedBut_dt (s : State) (b : Byte) : UnchangedBut {.dt} s { s with dt := b } := by
  intro p hp
  cases p with
  | dt => exact absurd rfl hp
  | _ => rfl

/-- Writing ST changes ST alone. -/
theorem State.unchangedBut_st (s : State) (b : Byte) : UnchangedBut {.st} s { s with st := b } := by
  intro p hp
  cases p with
  | st => exact absurd rfl hp
  | _ => rfl

/-- Taking an operation off the host's list changes that list alone. -/
theorem State.unchangedBut_pending (s : State) (ops : List HostOp) :
    UnchangedBut {.pending} s { s with pending := ops } := by
  intro p hp
  cases p with
  | pending => exact absurd rfl hp
  | _ => rfl

/-! ### TICK -/

/-- Natural subtraction stops at 0, as the tick does (45_timers.md R213). -/
theorem toNat_tickDown (t : Byte) : (tickDown t).toNat = t.toNat - 1 := by
  unfold tickDown
  split
  · bv_omega
  · omega

theorem State.unchangedBut_hostTick (s : State) : UnchangedBut ({.dt} ∪ {.st}) s s.hostTick :=
  (s.unchangedBut_dt (tickDown s.dt)).trans (State.unchangedBut_st _ (tickDown s.st))

/-- Settles O26: the step takes TICK off the list and runs it, which ticks each timer down and asks for no run state. -/
theorem tickCountsBothTimersDown : Obligations.TickCountsBothTimersDown := by
  intro s rest hpending
  refine ⟨State.hostTick { s with pending := rest }, step_of_pending hpending, toNat_tickDown s.dt,
    toNat_tickDown s.st, rfl, ?_⟩
  refine ((s.unchangedBut_pending rest).trans (State.unchangedBut_hostTick _)).mono ?_
  rintro p (rfl | rfl | rfl) <;> simp

/-! ### Fx07, Fx15 and Fx18 -/

theorem exec_ldDtV (x : Nibble) (s : State) : exec (.ldDtV x) s = .next { s with dt := s.reg x } := rfl

theorem exec_ldStV (x : Nibble) (s : State) : exec (.ldStV x) s = .next { s with st := s.reg x } := rfl

/-- Settles O56: each is one write, of a register or of a timer, and SOUND compares the ST written with 0. -/
theorem timerInstructionsMoveTheirRegister : Obligations.TimerInstructionsMoveTheirRegister := by
  refine fun s x => ⟨writesReg_of_exec rfl, ?ldDtV, ?ldStV⟩
  case ldDtV => exact ⟨_, exec_ldDtV x s, rfl, s.unchangedBut_dt _⟩
  case ldStV => exact ⟨_, exec_ldStV x s, rfl, State.sound_iff _, s.unchangedBut_st _⟩

end Sys2Proof.Machine
end

section
/-! PROOFS. Key input: the skips on a key (O57), Fx0A (O58), and the end of its wait (O13). -/

namespace Sys2Proof.Machine

/-! ### SKP and SKNP -/

theorem keyIndex_error {v : Byte} (h : 0x0F < v.toNat) : keyIndex v = .error (.addressOutOfRange v.toNat) := by
  rw [keyIndex, if_pos h]

/-- Where V[x] names a key, Ex9E skips on that key being pressed (46_input.md R226). -/
theorem skipsWhen_skp {s : State} {x : Nibble} (h : (s.reg x).toNat ≤ 0x0F) :
    SkipsWhen (.skp x) s (s.keys.getLsbD (s.reg x).toNat = true) :=
  skipsWhen_of_exec Iff.rfl (exec_skp s h)

/-- Where V[x] names a key, ExA1 skips on that key being released (46_input.md R227). -/
theorem skipsWhen_sknp {s : State} {x : Nibble} (h : (s.reg x).toNat ≤ 0x0F) :
    SkipsWhen (.sknp x) s (s.keys.getLsbD (s.reg x).toNat = false) :=
  skipsWhen_of_exec (Iff.of_eq (Bool.not_eq_true' _)) (exec_sknp s h)

theorem exec_skp_error {s : State} {x : Nibble} (h : 0x0F < (s.reg x).toNat) :
    exec (.skp x) s = .next (s.onError (.addressOutOfRange (s.reg x).toNat) (s.pc - 2) (encode (.skp x))) := by
  simp only [exec, execSkp, keyIndex_error h, bind, Except.bind, complete_error]

theorem exec_sknp_error {s : State} {x : Nibble} (h : 0x0F < (s.reg x).toNat) :
    exec (.sknp x) s = .next (s.onError (.addressOutOfRange (s.reg x).toNat) (s.pc - 2) (encode (.sknp x))) := by
  simp only [exec, execSknp, keyIndex_error h, bind, Except.bind, complete_error]

/-- ERR_ADDR is the offending byte itself (46_input.md R225). -/
theorem State.haltedWith_byte (s : State) (v : Byte) (pc0 w : Word) :
    HaltedWith s (s.onError (.addressOutOfRange v.toNat) pc0 w) .addressOutOfRange pc0 w (v.zeroExtend 16) := by
  have haddr : Error.addr (.addressOutOfRange v.toNat) = v.zeroExtend 16 := BitVec.ofNat_toNat 16 v
  exact haddr ▸ s.haltedWith_onError (.addressOutOfRange v.toNat) pc0 w

/-- A fetched skip that stays inside the address space moves PC past one word, or past two where its condition holds
in the state fetch leaves (41_control_flow.md R124). -/
theorem hostStep_pc_of_skipsWhen {s : State} {k : Word} {r : Byte} {i : Instr} {c : Prop} [Decidable c]
    (hrun : s.runState = .running) (hpc : s.pc.toNat ≤ 0xFFB) (hdec : decodeWord (s.wordAt s.pc.toNat) = .ok i)
    (hskip : SkipsWhen i (s.fetched k r) c) :
    ∃ t, hostStep k r s = .next t ∧ t.pc = s.pc + (if c then 4 else 2) := by
  rw [hostStep_decoded s k r hrun (by omega) hdec]
  obtain ⟨hstay, htake, -⟩ := hskip
  by_cases hc : c
  · have hfetched : (s.fetched k r).pc.toNat ≤ 0xFFD := by rw [State.fetched_pc]; bv_omega
    obtain ⟨t, hexec, htpc, -⟩ := htake hc hfetched
    refine ⟨t, hexec, ?_⟩
    rw [htpc, State.fetched_pc, if_pos hc, BitVec.add_assoc]
    rfl
  · exact ⟨_, hstay hc, by rw [State.fetched_pc, if_neg hc]⟩

/-- Settles O57: the key index passes its check exactly where V[x] names a key, and the rest is a skip on that key's
bit of the vector its STEP latched. -/
theorem keySkipsTestTheNamedKey : Obligations.KeySkipsTestTheNamedKey := by
  refine fun s x => ⟨fun hkey => ⟨skipsWhen_skp hkey, skipsWhen_sknp hkey⟩, fun hkey => ⟨?skpError, ?sknpError⟩,
    fun k r hrun hpc hkey => ⟨fun hdec => ?skpFetched, fun hdec => ?sknpFetched⟩⟩
  case skpError => exact ⟨_, exec_skp_error hkey, s.haltedWith_byte _ _ _⟩
  case sknpError => exact ⟨_, exec_sknp_error hkey, s.haltedWith_byte _ _ _⟩
  case skpFetched => exact hostStep_pc_of_skipsWhen hrun hpc hdec (skipsWhen_skp (s := s.fetched k r) hkey)
  case sknpFetched =>
    obtain ⟨t, hstep, htpc⟩ := hostStep_pc_of_skipsWhen hrun hpc hdec (skipsWhen_sknp (s := s.fetched k r) hkey)
    refine ⟨t, hstep, htpc.trans ?_⟩
    rw [State.fetched_keys, State.reg_fetched]
    cases k.getLsbD (s.reg x).toNat <;> rfl

/-! ### Fx0A -/

/-- Writing WAIT_X changes WAIT_X alone. -/
theorem State.unchangedBut_waitX (s : State) (x : Nibble) : UnchangedBut {.waitX} s { s with waitX := x } := by
  intro p hp
  cases p with
  | waitX => exact absurd rfl hp
  | _ => rfl

/-- Writing RUN_STATE changes RUN_STATE alone. -/
theorem State.unchangedBut_runState (s : State) (q : RunState) :
    UnchangedBut {.runState} s { s with runState := q } := by
  intro p hp
  cases p with
  | runState => exact absurd rfl hp
  | _ => rfl

/-- Settles O58: the two writes are all that Fx0A does. -/
theorem keyWaitSuspendsTheCore : Obligations.KeyWaitSuspendsTheCore :=
  fun s x => ⟨_, exec_ldVK x s, rfl, rfl,
    (s.unchangedBut_waitX x).trans (State.unchangedBut_runState _ .awaitingKey)⟩

/-! ### The end of the wait -/

/-- A new key edge is a key released before and pressed now (40_fetch_cycle.md R107). -/
theorem getLsbD_edges {old new : Word} {j : Nat} (hj : j < 16) :
    (new &&& ~~~old).getLsbD j = true ↔ new.getLsbD j = true ∧ old.getLsbD j = false := by
  simp [hj]

theorem State.keyResume_zero (s : State) : s.keyResume 0 = s := by
  simp only [State.keyResume, (lowestSet_eq_none 0).mpr rfl]

theorem State.keyResume_of_lowestSet (s : State) {edges : Word} {j : Nat} (h : lowestSet edges = some j) :
    s.keyResume edges = { s.setReg s.waitX (BitVec.ofNat 8 j) with runState := .running } := by
  simp only [State.keyResume, h]

theorem lowestSet_edges {old new : Word} {j : Nat} (hj : j < 16)
    (hedge : new.getLsbD j = true ∧ old.getLsbD j = false)
    (hlowest : ∀ l, l < j → ¬(new.getLsbD l = true ∧ old.getLsbD l = false)) :
    lowestSet (new &&& ~~~old) = some j :=
  (lowestSet_eq_some _ j).mpr ⟨hj, (getLsbD_edges hj).mpr hedge,
    fun l hl => Bool.eq_false_iff.mpr (mt (getLsbD_edges (hl.trans hj)).mp (hlowest l hl))⟩

/-- Ending a key wait after the latch writes the inputs, V[WAIT_X] and RUN_STATE alone. -/
theorem State.unchangedBut_resumed (s : State) (k : Word) (r b : Byte) :
    UnchangedBut {.keys, .rnd, .reg s.waitX, .runState} s
      { (s.latched k r).setReg s.waitX b with runState := .running } := by
  refine (((s.unchangedBut_latched k r).trans ((s.latched k r).unchangedBut_setReg s.waitX b)).trans
    (State.unchangedBut_runState _ .running)).mono ?_
  rintro p (((rfl | rfl) | rfl) | rfl) <;> simp

/-- Settles O13: without an edge KeyResume leaves the state as the latch made it, else it stores the lowest edge. -/
theorem keyResumeTakesTheLowestNewKey : Obligations.KeyResumeTakesTheLowestNewKey := by
  intro s k r hawait
  rw [hostStep_awaitingKey s k r hawait]
  refine ⟨fun hnone => ?noEdge, fun j hj hedge hlowest => ?edge⟩
  case noEdge =>
    rw [hnone, State.keyResume_zero]
    exact ⟨_, rfl, rfl, s.unchangedBut_latched k r⟩
  case edge =>
    have hbyte : (BitVec.ofNat 8 j).toNat = j := (BitVec.toNat_ofNat j 8).trans (Nat.mod_eq_of_lt (by omega))
    rw [State.keyResume_of_lowestSet _ (lowestSet_edges hj hedge hlowest)]
    refine ⟨_, rfl, rfl, ?_, rfl, s.unchangedBut_resumed k r _⟩
    exact (congrArg BitVec.toNat (State.reg_setReg_self _ _ _)).trans hbyte

end Sys2Proof.Machine
end

section
/-! PROOFS. Errors: what a STEP that halts leaves (O10), that RESET alone leaves HALTED (O11), and that every step
answers a next state (O7). -/

namespace Sys2Proof.Machine

/-! ### A step that halts took an error -/

/-- No effect of an instruction halts the CORE: only an error does (10_state.md R33). -/
theorem Effect.runState_ne_halted {s t : State} {w : Set Part} (heff : Effect s w t) (hrun : s.runState ≠ .halted) :
    t.runState ≠ .halted := by
  cases heff with
  | wait => simp
  | _ => exact hrun

/-- An instruction that halts took an error, and wrote nothing before it (00_scope.md R8). -/
theorem exec_halted {i : Instr} {s t : State} (h : exec i s = .next t) (hrun : s.runState ≠ .halted)
    (hhalted : t.runState = .halted) : ∃ e, t = s.onError e (s.pc - 2) (encode i) := by
  rcases exec_effect h with herr | heff
  · exact herr
  · exact absurd hhalted (heff.runState_ne_halted hrun)

/-- The word ERR_OPCODE records for an error of the next cycle: the fetched word, 0 where a byte of it could not be
read (40_fetch_cycle.md R105). -/
def State.errOpcode (s : State) : Word := if s.pc.toNat ≤ 0xFFE then s.wordAt s.pc.toNat else 0

/-- An error taken by the instruction the fetch ran is the cycle's error at the old PC: PC goes back by the 2 the
fetch added. -/
theorem State.onError_advanced (s : State) (e : Error) (w : Word) :
    State.onError { s with pc := s.pc + 2 } e (s.pc + 2 - 2) w = s.onError e s.pc w := by
  rw [BitVec.add_sub_cancel]
  rfl

/-- Whatever the error, a cycle that halts leaves the state before it with the error taken at its own PC. -/
theorem cycle_halted {s t : State} (h : cycle s = .next t) (hrun : s.runState ≠ .halted)
    (hhalted : t.runState = .halted) : ∃ e, t = s.onError e s.pc s.errOpcode := by
  rcases cycle_cases s with ⟨i, hpc, hdec, hexec⟩ | ⟨e, w, herr, hread, hunread⟩
  · rw [hexec] at h
    obtain ⟨e, rfl⟩ := exec_halted h hrun hhalted
    have hword : encode i = s.errOpcode := by
      rw [encode_of_decodeWord hdec, State.errOpcode, if_pos (by omega)]
    exact ⟨e, by rw [hword]; exact s.onError_advanced e _⟩
  · rw [herr] at h
    cases h
    have hword : w = s.errOpcode := by
      unfold State.errOpcode
      split
      · next hle => exact hread hle
      · next hgt => exact hunread (by omega)
    exact ⟨e, by rw [hword]⟩

/-- An error taken at PC writes the run state and the record alone (60_exceptions.md R248). -/
theorem State.unchangedBut_onError (s : State) (e : Error) (w : Word) :
    UnchangedBut {.runState, .err} s (s.onError e s.pc w) := by
  intro p hp
  cases p with
  | runState | err => simp at hp
  | _ => rfl

/-- Settles O10: a running STEP that halts is its latch and then one error of its cycle, taken at the old PC. -/
theorem everyErrorIsPrecise : Obligations.EveryErrorIsPrecise := by
  intro s t k r hrun hstep hhalted
  rw [hostStep_running s k r hrun] at hstep
  obtain ⟨e, rfl⟩ := cycle_halted hstep (by simp [hrun]) hhalted
  refine ⟨rfl, e.code_ne_none, rfl, fun hread => if_pos hread, fun hunread => if_neg (by simpa using hunread),
    e.addr_eq_zero, ?_⟩
  exact ((s.unchangedBut_latched k r).trans ((s.latched k r).unchangedBut_onError e _)).mono
    (by rintro p ((rfl | rfl) | (rfl | rfl)) <;> simp)

/-! ### HALTED -/

theorem State.hostLoad_err (s : State) (rom : List Byte) : (s.hostLoad rom).err = s.err := by
  rcases s.hostLoad_cases rom with heq | ⟨-, heq⟩ <;> simp [heq]

theorem hostStep_keeps_halted {s t : State} {k : Word} {r : Byte} (h : hostStep k r s = .next t)
    (hhalted : s.runState = .halted) : t.runState = .halted ∧ t.err = s.err := by
  cases (hostStep_halted s k r hhalted).symm.trans h
  exact ⟨hhalted, rfl⟩

/-- Every host operation but RESET leaves a halted CORE halted, with its record (60_exceptions.md R250). -/
theorem hostOp_halted {op : HostOp} {s t : State} (h : hostOp op s = .next t) (hhalted : s.runState = .halted) :
    (t.runState = .halted ∧ t.err = s.err) ∨ ∃ cfg, op = .reset cfg := by
  cases op with
  | reset cfg => exact .inr ⟨cfg, rfl⟩
  | load rom => cases h; exact .inl ⟨(s.hostLoad_runState rom).trans hhalted, s.hostLoad_err rom⟩
  | step k r => exact .inl (hostStep_keeps_halted h hhalted)
  | tick => cases h; exact .inl ⟨hhalted, rfl⟩

/-- Settles O11: a STEP in HALTED is its latch, and no host operation but RESET touches RUN_STATE or the record. -/
theorem haltedIsLeftOnlyByReset : Obligations.HaltedIsLeftOnlyByReset := by
  refine ⟨fun s k r hhalted => ⟨_, hostStep_halted s k r hhalted, rfl, s.unchangedBut_latched k r⟩,
    fun s t hhalted h => ?_⟩
  rcases step_cases h with ⟨op, rest, hpending, hop⟩ | ⟨k, r, -, hstep⟩
  · rcases hostOp_halted hop hhalted with hkept | ⟨cfg, rfl⟩
    · exact .inl hkept
    · exact .inr ⟨cfg, rest, hpending⟩
  · obtain ⟨hkept, herr⟩ := hostStep_keeps_halted hstep hhalted
    exact .inl ⟨hkept, herr⟩

/-! ### Every step answers a next state -/

/-- An instruction ends in a next state, by completing or by its error (60_exceptions.md R242). -/
theorem exec_next (i : Instr) (s : State) : ∃ t, exec i s = .next t := by
  obtain ⟨r, hr⟩ := exec_eq_complete i s
  rw [hr]
  cases r with
  | ok t => exact ⟨t, complete_ok i s t⟩
  | error e => exact ⟨_, complete_error i s e⟩

theorem cycle_next (s : State) : ∃ t, cycle s = .next t := by
  rcases cycle_cases s with ⟨i, -, -, hexec⟩ | ⟨e, w, herr, -⟩
  · rw [hexec]
    exact exec_next i _
  · exact ⟨_, herr⟩

theorem hostStep_next (s : State) (k : Word) (r : Byte) : ∃ t, hostStep k r s = .next t := by
  cases hrun : s.runState with
  | running => rw [hostStep_running s k r hrun]; exact cycle_next _
  | awaitingKey => exact ⟨_, hostStep_awaitingKey s k r hrun⟩
  | halted => exact ⟨_, hostStep_halted s k r hrun⟩

theorem hostOp_next (op : HostOp) (s : State) : ∃ t, hostOp op s = .next t := by
  cases op with
  | step k r => exact hostStep_next s k r
  | reset | load | tick => exact ⟨_, rfl⟩

/-- Settles O7: a step is a host operation, and only STEP runs a cycle, which ends in a next state. -/
theorem everyStepAnswersANextState : Obligations.EveryStepAnswersANextState := by
  intro s
  cases hpending : s.pending with
  | cons op rest => rw [step_of_pending hpending]; exact hostOp_next op _
  | nil => rw [step_of_no_pending hpending]; exact hostStep_next _ _ _

end Sys2Proof.Machine
end

section
/-! PROOFS. RESET: the values it leaves (O21, O22), the invariant they meet (O16), and the STEP that follows it with
no LOAD between (O24). -/

namespace Sys2Proof.Machine

/-! ### The values RESET leaves -/

theorem Memory.unlisted_font (font : Font) {a : Nat} (h : a < Config.fontSize) : unlisted font a = font[a] :=
  dif_pos h

theorem Memory.unlisted_zero (font : Font) {a : Nat} (h : Config.fontSize ≤ a) : unlisted font a = 0 :=
  dif_neg (Nat.not_lt.mpr h)

/-- Every cell is unlisted after RESET. -/
theorem State.readByte_resetWith (font : Font) (cfg : BitVec 4) (a : Nat) :
    (State.resetWith font cfg).readByte a = Memory.unlisted font a := rfl

theorem State.isReset_resetWith (font : Font) (cfg : BitVec 4) : (State.resetWith font cfg).IsReset font cfg where
  font_bytes a h := (State.readByte_resetWith font cfg a).trans (Memory.unlisted_font font h)
  zero_bytes a h _ := (State.readByte_resetWith font cfg a).trans (Memory.unlisted_zero font h)
  regs x := Vector.getElem_replicate x.isLt
  slots j := Vector.getElem_replicate j.isLt
  i_pc_sp := ⟨rfl, rfl, rfl⟩
  timers := ⟨rfl, rfl⟩
  pixels := Display.pixel_blank
  keys := rfl
  running := ⟨rfl, rfl⟩
  no_error := rfl
  load_status := rfl
  config := rfl

/-- The fields the host operation RESET keeps are none of those it gives a value. -/
theorem State.isReset_hostReset (s : State) (cfg : BitVec 4) : (s.hostReset cfg).IsReset s.font cfg :=
  { State.isReset_resetWith s.font cfg with }

/-- Settles O16: State.reset is the reset state of one FONT and configuration, and every such state meets it. -/
theorem resetSatisfiesTheInvariant : Obligations.ResetSatisfiesTheInvariant :=
  ⟨State.inv_resetWith Font.default Config.resetConfig, State.inv_resetWith⟩

/-- Settles O21: the pending RESET is the step, and it leaves the rest of the operations pending. -/
theorem resetInitialisesTheWholeState : Obligations.ResetInitialisesTheWholeState :=
  fun s cfg rest hpending =>
    ⟨State.hostReset { s with pending := rest } cfg, step_of_pending hpending,
      State.isReset_hostReset { s with pending := rest } cfg, rfl⟩

/-- Settles O22, as the reset state of the default FONT and the configuration 0b0000. -/
theorem resetStateHasTheResetValues : Obligations.ResetStateHasTheResetValues :=
  ⟨State.isReset_resetWith Font.default Config.resetConfig, rfl⟩

/-! ### A STEP before any LOAD -/

/-- The first two bytes of glyph 0 of the default FONT, read as a word (70_reset_and_hazards.md R271). -/
theorem State.wordAt_reset_zero : State.reset.wordAt 0 = 0xF090 := rfl

theorem decodeWord_F090 : decodeWord 0xF090 = .error .unmappedMisc := rfl

/-- Settles O24: PC is 0, where the first font word is no instruction. -/
theorem stepBeforeAnyLoadHaltsOnTheFont : Obligations.StepBeforeAnyLoadHaltsOnTheFont := by
  have hdecode : decodeWord (State.reset.wordAt 0) = .error .unmappedMisc :=
    State.wordAt_reset_zero ▸ decodeWord_F090
  obtain ⟨t, hstep, hhalted, herr, -, -⟩ := invalidWordRaisesInvalidOpcode
    { State.reset with draws := State.reset.draws + 1 } (Config.freeKeys State.reset.draws)
    (Config.freeRandom State.reset.draws) .unmappedMisc rfl (Nat.zero_le _) hdecode
  exact ⟨t, (step_of_no_pending rfl).trans hstep, hhalted, herr⟩

end Sys2Proof.Machine
end

section
/-! PROOFS. LOAD: an image that fits is copied, any other refused (O25); RESET then LOAD is the boot sequence (O23). -/

namespace Sys2Proof.Machine

/-! ### LOAD -/

theorem State.hostLoad_refused (s : State) {rom : List Byte} (h : 0x1000 < Config.romBase + rom.length) :
    s.hostLoad rom = { s with loadStatus := .romTooLarge } :=
  if_pos h

theorem State.hostLoad_fits (s : State) {rom : List Byte} (h : Config.romBase + rom.length ≤ 0x1000) :
    s.hostLoad rom =
      State.writeBytes { s with pc := BitVec.ofNat 16 Config.romBase, loadStatus := .success } Config.romBase rom :=
  if_neg (Nat.not_lt.mpr h)

/-- Writing LOAD_STATUS changes LOAD_STATUS alone. -/
theorem State.unchangedBut_loadStatus (s : State) (q : LoadStatus) :
    UnchangedBut {.loadStatus} s { s with loadStatus := q } := by
  intro p hp
  cases p with
  | loadStatus => exact absurd rfl hp
  | _ => rfl

/-- A LOAD that fits writes the image's bytes, PC and LOAD_STATUS alone. -/
theorem State.unchangedBut_hostLoad_fits (s : State) {rom : List Byte} (h : Config.romBase + rom.length ≤ 0x1000) :
    UnchangedBut (({.pc} ∪ {.loadStatus}) ∪ byteParts Config.romBase rom.length) s (s.hostLoad rom) := by
  rw [s.hostLoad_fits h]
  exact ((s.unchangedBut_pc (BitVec.ofNat 16 Config.romBase)).trans (State.unchangedBut_loadStatus _ .success)).trans
    (State.unchangedBut_writeBytes _ Config.romBase rom)

/-- Settles O25: LOAD's one test decides between the refusal and the copy. -/
theorem loadCopiesTheImageOrRefusesIt : Obligations.LoadCopiesTheImageOrRefusesIt := by
  intro s rom rest hpending
  rw [step_of_pending hpending]
  refine ⟨fun hbig => ⟨_, rfl, ?refused⟩, fun hfits => ⟨_, rfl, ?copied⟩⟩
  case refused =>
    rw [State.hostLoad_refused _ hbig]
    exact ⟨rfl, rfl, ((s.unchangedBut_pending rest).trans (State.unchangedBut_loadStatus _ .romTooLarge)).mono
      (by rintro p (rfl | rfl) <;> simp)⟩
  case copied =>
    have hframe := (s.unchangedBut_pending rest).trans (State.unchangedBut_hostLoad_fits _ hfits)
    rw [State.hostLoad_fits _ hfits] at hframe ⊢
    refine ⟨rfl, rfl, rfl, fun k hk => State.readByte_writeBytes_add _ _ hk, hframe.mono ?_⟩
    rintro p (rfl | ((rfl | rfl) | himage))
    · simp
    · simp
    · simp
    · exact .inl himage

/-! ### The boot sequence -/

theorem byte_notMem_byteParts_of_lt {base len a : Nat} (h : a < base) : .byte a ∉ byteParts base len := by
  rintro ⟨k, -, heq⟩
  cases heq
  omega

/-- Settles O23: RESET gives every part its value, and LOAD keeps all but the image's bytes, PC and LOAD_STATUS. -/
theorem bootSequenceStartsTheProgram : Obligations.BootSequenceStartsTheProgram := by
  intro s cfg rom rest hpending hfits
  obtain ⟨t, hreset, hinit, htpending⟩ := resetInitialisesTheWholeState s cfg _ hpending
  obtain ⟨u, hload, hstatus, hupending, hpc, himage, hframe⟩ :=
    (loadCopiesTheImageOrRefusesIt t rom rest htpending).2 hfits
  obtain ⟨hi, -, hsp⟩ := hinit.i_pc_sp
  obtain ⟨hdt, hst⟩ := hinit.timers
  have hbyte : ∀ a, a < 0x200 → u.readByte a = t.readByte a := fun a ha =>
    hframe (.byte a) (by simp [byte_notMem_byteParts_of_lt ha])
  refine ⟨t, u, hreset, hload, hstatus, ?_, hupending, hpc, ?_, ?_, ?_, ?_, ?_, ?_, ?_, ?_, himage⟩
  · exact Eq.trans (hframe .runState (by simp [byteParts])) hinit.running.1
  · exact (congrArg Fin.val (hframe .sp (by simp [byteParts]))).trans hsp
  · exact Eq.trans (hframe .i (by simp [byteParts])) hi
  · exact Eq.trans (hframe .dt (by simp [byteParts])) hdt
  · exact Eq.trans (hframe .st (by simp [byteParts])) hst
  · exact fun x => Eq.trans (hframe (.reg x) (by simp [byteParts])) (hinit.regs x)
  · exact fun x y => Eq.trans (hframe (.pixel x y) (by simp [byteParts])) (hinit.pixels x y)
  · exact fun a ha => (hbyte a (by simp only [Config.fontSize] at ha; omega)).trans (hinit.font_bytes a ha)
  · exact fun a hlow ha => (hbyte a ha).trans (hinit.zero_bytes a hlow (by simp only [Config.memSize]; omega))

end Sys2Proof.Machine
end
